-- ==== Sys2Proof/Word.lean ====
section
/-! DEFINITION. The machine's word types: the byte of registers and memory cells (spec/10_state.md R20, R21, R29), the
register index (R20, R22) and the three-bit flags value (R26, R27). -/

namespace Sys2Proof

/-- A byte: the content of a register, a memory cell or an instruction byte (R7, R20, R29). -/
abbrev Byte := BitVec 8

/-- The index of a general register, 0 to 7 (R20). -/
abbrev RegIndex := Fin 8

/-- The flags register's value: bit 0 is E, bit 1 is G, bit 2 is L (R26). -/
abbrev Flags := BitVec 3

end Sys2Proof
end

