-- ==== Sys2Proof/Config.lean ====
section
/-! DEFINITION. What the spec fixes once for the machine (spec/00_scope.md R6): the closed set of mnemonics, their formats
and lengths (spec/30_encoding.md R61, R62), the parameters OPCODE_MAP, FL_RESET and MEM_FILL with their defaults, and
the open parameter TRACE_OOB_READ as a free value. -/

namespace Sys2Proof

/-- The thirteen mnemonics of the closed instruction set (R1, R62), in the order of R62's table. -/
inductive Mnemonic where
  | hlt | ldi | prn | mul | add | cmp | push | pop | call | ret | jmp | jeq | jne
  deriving DecidableEq, Repr

/-- The thirteen mnemonics, each once. -/
def Mnemonic.all : List Mnemonic :=
  [.hlt, .ldi, .prn, .mul, .add, .cmp, .push, .pop, .call, .ret, .jmp, .jeq, .jne]

/-- The four instruction formats (R61). -/
inductive Format where
  /-- one byte: the opcode -/
  | f1
  /-- two bytes: the opcode and the register operand a -/
  | f2r
  /-- three bytes: the opcode and the register operands a and b -/
  | f3rr
  /-- three bytes: the opcode, the register operand a and the immediate -/
  | f3ri
  deriving DecidableEq, Repr

/-- A format's length in bytes (R61). -/
def Format.length : Format → Nat
  | .f1 => 1
  | .f2r => 2
  | .f3rr => 3
  | .f3ri => 3

/-- A mnemonic's format (R62). -/
def Mnemonic.format : Mnemonic → Format
  | .hlt => .f1
  | .ldi => .f3ri
  | .prn => .f2r
  | .mul => .f3rr
  | .add => .f3rr
  | .cmp => .f3rr
  | .push => .f2r
  | .pop => .f2r
  | .call => .f2r
  | .ret => .f1
  | .jmp => .f2r
  | .jeq => .f2r
  | .jne => .f2r

/-- The parameter OPCODE_MAP: an opcode byte for each mnemonic (R6, R62). A legal map is injective. -/
abbrev OpcodeMap := Mnemonic → Byte

namespace Config

/-- OPCODE_MAP's default, the values of R62's table. PRESUMED: the spec takes them from general knowledge (log 1). -/
def opcodeMap : OpcodeMap
  | .hlt => 0x01
  | .ldi => 0x82
  | .prn => 0x47
  | .mul => 0xA2
  | .add => 0xA0
  | .cmp => 0xA7
  | .push => 0x45
  | .pop => 0x46
  | .call => 0x50
  | .ret => 0x11
  | .jmp => 0x54
  | .jeq => 0x55
  | .jne => 0x56

/-- The number of memory cells (R6, R29, R40). -/
def memSize : Nat := 256

/-- MEM_FILL's default: what a cell that nothing has written holds (R6, R32). DESIGN CHOICE (log 2). -/
def memFill : Byte := 0x00

/-- FL_RESET's default (R6, R26, R32). DESIGN CHOICE (log 3). -/
def flReset : Flags := 0b000

/-- The program counter after reset (R6, R32). DESIGN CHOICE (log 5). -/
def pcReset : Nat := 0

/-- The stack pointer after reset (R6, R32). -/
def spReset : Byte := 0xF4

/-- The index of the stack pointer (R6, R23). -/
def spIndex : RegIndex := 7

/-- TRACE_OOB_READ (R6, R185): what the trace shows for the byte at an address above 255. A free value (log 19). -/
opaque traceOobRead : Nat → List Char

/-- What the trace shows for a pc above 255, which has no two-digit hexadecimal form. A free value (log 19). -/
opaque traceWidePc : Nat → List Char

end Config

end Sys2Proof
end

