-- ==== Sys2Proof/Machine/State.lean ====
section
/-! DEFINITION. The machine's state (spec/10_state.md R20 to R32), all of it plain data, the reasons a step can stop, and the
state after reset. -/

namespace Sys2Proof.Machine

/-- The tag that selects an ALU operation (spec/43_arithmetic.md R120). The decoder makes only the first two; `other`
stands for any tag that is neither (R121). -/
inductive AluTag where
  | add
  | compare
  | other (tag : Nat)
  deriving DecidableEq, Repr

/-- The core's four fault kinds with the information each records (spec/60_exceptions.md R170). They are raised inside a
step, and the step then ends with this record in `status` (R171): they are states of the machine, not stops of the model. -/
inductive CoreFault where
  /-- code 1: a memory address outside 0 to 255 (R172) -/
  | outOfBounds (address : Nat)
  /-- code 2: a register operand byte above 7 (R173) -/
  | invalidRegister (index : Byte)
  /-- code 3: an ALU tag that is neither Add nor Compare; no program raises it (R174) -/
  | unsupportedAluOperation (tag : AluTag)
  /-- code 4: an opcode byte that is not in OPCODE_MAP (R175), with the address it was fetched from (R84) -/
  | illegalInstruction (pc : Nat) (opcode : Byte)
  deriving DecidableEq, Repr

/-- The run status (R28). -/
inductive Status where
  | running
  | halted
  | faulted (fault : CoreFault)
  deriving DecidableEq, Repr

/-- The register file: eight registers of one byte (R20). `r7` is the stack pointer (R23). -/
structure Regs where
  r0 : Byte
  r1 : Byte
  r2 : Byte
  r3 : Byte
  r4 : Byte
  r5 : Byte
  r6 : Byte
  r7 : Byte
  deriving DecidableEq, Repr

/-- Memory (R29, R40): the cells that differ from `Config.memFill`, in strictly rising order of address. -/
abbrev Memory := List Host.Cell

/-- The state of the core, the whole of it (R31). -/
structure State where
  /-- the 256 memory cells (R29) -/
  mem : Memory
  /-- the general registers (R20) -/
  regs : Regs
  /-- the program counter, an unsigned integer that never wraps (R25) -/
  pc : Nat
  /-- the flags register (R26) -/
  fl : Flags
  /-- the run status (R28) -/
  status : Status
  /-- the output stream, oldest entry first (R30) -/
  output : List Byte
  deriving DecidableEq, Repr

/-- Why the model makes no step. These are no faults of the core (those are `CoreFault`s in `status`): they say that the
core HAS no step, because its run is over (spec/40_fetch_dispatch.md R90). -/
inductive Fault where
  /-- raised by `step` when status is Halted; safe: no state follows (R90, R186) -/
  | noStepHalted
  /-- raised by `step` when status is Faulted; safe: no state follows (R90, R171) -/
  | noStepFaulted
  deriving DecidableEq, Repr

/-- Why the model gives an instruction no meaning. -/
inductive Refusal where
  /-- raised by an arm of `exec` whose instruction has no meaning yet; safe. No arm of this model raises it. -/
  | notModelled (mnemonic : String)
  deriving DecidableEq, Repr

/-- The state after reset, before the Loader writes memory (R32, R200). -/
def State.reset : State where
  mem := []
  regs :=
    { r0 := 0, r1 := 0, r2 := 0, r3 := 0, r4 := 0, r5 := 0, r6 := 0, r7 := Config.spReset }
  pc := Config.pcReset
  fl := Config.flReset
  status := .running
  output := []

end Sys2Proof.Machine
end

