-- ==== Sys2Proof/Machine/Ops.lean ====
section
/-! DEFINITION. The named operations over memory, registers, program counter, flags, status and output
(spec/00_scope.md R8), and the taking of a fault. Every read and write of the state goes through one of these. -/

namespace Sys2Proof.Machine

/-- What an instruction's statements compute: a value, or the fault they raise (R8: `raise` ends the step). -/
abbrev Checked := Except CoreFault

/-! ## Memory -/

/-- The byte at an address: its listed value, or MEM_FILL where the address is not listed (R32, R41). The list is in rising
order, so the search ends at the first address that is not below the one sought. -/
def Memory.get : Memory → Nat → Byte
  | [], _ => Config.memFill
  | (b, w) :: m, a => if b < a then Memory.get m a else if b = a then w else Config.memFill

/-- The listed form of one cell: nothing for MEM_FILL, else the pair. -/
def cellOf (a : Nat) (v : Byte) : Memory := if v = Config.memFill then [] else [(a, v)]

/-- The cells above an address, in a list in rising order. -/
def cellsAbove (a : Nat) : Memory → Memory
  | [] => []
  | (b, w) :: m => if b ≤ a then cellsAbove a m else (b, w) :: m

/-- Memory with one byte replaced (R41: "A write changes only the addressed cell"), in canonical form. -/
def Memory.put : Memory → Nat → Byte → Memory
  | [], a, v => cellOf a v
  | (b, w) :: m, a, v => if b < a then (b, w) :: Memory.put m a v else cellOf a v ++ cellsAbove a ((b, w) :: m)

/-- Addresses rise strictly from above `lo`, lie inside memory, and no cell holds MEM_FILL. -/
def Memory.wfFrom : Nat → Memory → Bool
  | _, [] => true
  | lo, (b, w) :: m => decide (lo ≤ b) && decide (b < Config.memSize) && decide (w ≠ Config.memFill) && Memory.wfFrom (b + 1) m

/-- The canonical form of memory. -/
def Memory.wf (m : Memory) : Bool := Memory.wfFrom 0 m

/-- The state with another memory. -/
def State.setMem (s : State) (m : Memory) : State := { s with mem := m }

/-- MemRead(addr, 1) (R8, R42). -/
def memRead (s : State) (addr : Nat) : Checked Byte :=
  if addr < Config.memSize then .ok (s.mem.get addr) else .error (.outOfBounds addr)

/-- MemWrite(addr, 1, v) (R8, R42). -/
def memWrite (s : State) (addr : Nat) (v : Byte) : Checked State :=
  if addr < Config.memSize then .ok (s.setMem (s.mem.put addr v)) else .error (.outOfBounds addr)

/-! ## Registers -/

/-- A read port of the register file (R22, R24). -/
def Regs.get (x : Regs) (i : RegIndex) : Byte :=
  match i with
  | 0 => x.r0
  | 1 => x.r1
  | 2 => x.r2
  | 3 => x.r3
  | 4 => x.r4
  | 5 => x.r5
  | 6 => x.r6
  | 7 => x.r7

/-- The write port of the register file (R22, R24). -/
def Regs.set (x : Regs) (i : RegIndex) (v : Byte) : Regs :=
  match i with
  | 0 => { x with r0 := v }
  | 1 => { x with r1 := v }
  | 2 => { x with r2 := v }
  | 3 => { x with r3 := v }
  | 4 => { x with r4 := v }
  | 5 => { x with r5 := v }
  | 6 => { x with r6 := v }
  | 7 => { x with r7 := v }

/-- x[i] (R8). -/
def State.reg (s : State) (i : RegIndex) : Byte := s.regs.get i

/-- x[i] <- v (R8). -/
def State.setReg (s : State) (i : RegIndex) (v : Byte) : State := { s with regs := s.regs.set i v }

/-- SP, another name for x[7] (R8, R23). -/
def State.sp (s : State) : Byte := s.reg Config.spIndex

/-- SP <- (SP - 1) mod 256 (spec/44_stack.md R143). -/
def State.decSp (s : State) : State := s.setReg Config.spIndex (s.sp - 1)

/-- SP <- (SP + 1) mod 256 (R143). -/
def State.incSp (s : State) : State := s.setReg Config.spIndex (s.sp + 1)

/-- The address of the top of the stack: SP points at the last byte written (R140). -/
def State.stackTop (s : State) : Nat := s.sp.toNat

/-! ## Program counter, flags, status, output -/

/-- pc <- target (R8). -/
def State.setPc (s : State) (target : Nat) : State := { s with pc := target }

/-- pc <- p + n, never reduced modulo 256 (R25). -/
def State.advance (s : State) (n : Nat) : State := s.setPc (s.pc + n)

/-- FL <- v, all three bits at once (R8). -/
def State.setFl (s : State) (v : Flags) : State := { s with fl := v }

/-- status <- Halted (R8). -/
def State.halt (s : State) : State := { s with status := .halted }

/-- out(v): append to the output stream (R8, R112). -/
def State.emit (s : State) (v : Byte) : State := { s with output := s.output ++ [v] }

/-! ## Taking a fault

The machine's only exception entry (R171, R176): the status records the fault, and nothing else of the state before the step
changes: no register saves the pc or the status, no mode changes, control goes nowhere. There is no return from it (R179). -/

/-- The state after a step that raised: `s` is the state before the step (R171, R176). -/
def takeFault (s : State) (f : CoreFault) : State := { s with status := .faulted f }

/-- The fault's code (R170). LoadError's code 5 is the Loader's. -/
def CoreFault.code : CoreFault → Nat
  | .outOfBounds _ => 1
  | .invalidRegister _ => 2
  | .unsupportedAluOperation _ => 3
  | .illegalInstruction _ _ => 4

/-- The end of a handler that started in `s`: its result, or, where it raised, the fault taken in `s` (R171, R176). -/
def complete (s : State) (r : Checked State) : Host.Outcome State Fault Refusal :=
  match r with
  | .ok t => .next t
  | .error f => .next (takeFault s f)

end Sys2Proof.Machine
end

