-- ==== Sys2Proof/Machine/Flags.lean ====
section
/-! DEFINITION. The flags register's fields and the one computation that writes them (spec/10_state.md R26,
spec/43_arithmetic.md R120, R124). -/

namespace Sys2Proof.Machine

/-- E, bit 0. -/
def flagE (fl : Flags) : Bool := fl.getLsbD 0

/-- G, bit 1. -/
def flagG (fl : Flags) : Bool := fl.getLsbD 1

/-- L, bit 2. -/
def flagL (fl : Flags) : Bool := fl.getLsbD 2

/-- The flags of an unsigned comparison of two bytes: exactly one of E, G and L (R124). -/
def compareFlags (x y : Byte) : Flags :=
  if x.toNat = y.toNat then 0b001 else if x.toNat > y.toNat then 0b010 else 0b100

end Sys2Proof.Machine
end

