-- ==== Sys2Proof/Machine/Operands.lean ====
section
/-! DEFINITION. The operand forms: a register operand and an immediate, each a whole byte (spec/30_encoding.md R64, R65), and
the decoder's check of register fields (spec/40_fetch_dispatch.md R85). -/

namespace Sys2Proof.Machine

/-- The register a register field names, with no masking: a byte above 7 raises InvalidRegister (R22, R64, R85, R173). -/
def regOperand (a : Byte) : Checked RegIndex :=
  if h : a.toNat < 8 then .ok ⟨a.toNat, h⟩ else .error (.invalidRegister a)

/-- The operand byte that names a register. -/
def regByte (r : RegIndex) : Byte := BitVec.ofNat 8 r.val

/-- The immediate operand: the whole byte, no extension, never checked (R65). -/
def immOperand (b : Byte) : Byte := b

end Sys2Proof.Machine
end

