-- ==== Sys2Proof/Syntax.lean ====
section
/-! DEFINITION. The instructions: one constructor for each row of spec/opcode_table.json. An operand is the whole operand
byte as it was fetched (spec/30_encoding.md R64, R65): whether a register operand names a register is WellFormed's and the
operand check's business. -/

namespace Sys2Proof

/-- An instruction with its operand bytes (R61, R62): `a` is the byte at pc + 1, `b` and `imm` the byte at pc + 2. -/
inductive Instr where
  | hlt
  | ldi (a imm : Byte)
  | prn (a : Byte)
  | mul (a b : Byte)
  | add (a b : Byte)
  | cmp (a b : Byte)
  | push (a : Byte)
  | pop (a : Byte)
  | call (a : Byte)
  | ret
  | jmp (a : Byte)
  | jeq (a : Byte)
  | jne (a : Byte)
  deriving DecidableEq, Repr

/-- The instruction's mnemonic, the decoder's output `ins` (R84). -/
def Instr.mnemonic : Instr → Mnemonic
  | .hlt => .hlt
  | .ldi _ _ => .ldi
  | .prn _ => .prn
  | .mul _ _ => .mul
  | .add _ _ => .add
  | .cmp _ _ => .cmp
  | .push _ => .push
  | .pop _ => .pop
  | .call _ => .call
  | .ret => .ret
  | .jmp _ => .jmp
  | .jeq _ => .jeq
  | .jne _ => .jne

/-- The instruction's format, the decoder's output `fmt` (R84). -/
def Instr.format (i : Instr) : Format := i.mnemonic.format

/-- The instruction's length in bytes, the decoder's output `len` (R68, R84). -/
def Instr.length (i : Instr) : Nat := i.format.length

end Sys2Proof
end

