-- ==== Sys2Proof/Machine/Alu.lean ====
section
/-! DEFINITION. The ALU (spec/43_arithmetic.md R120, R121) and the decoder's selection of its operation (R84). Multiplication
is no ALU operation: MUL has a multiplier of its own (R120, R122). -/

namespace Sys2Proof.Machine

/-- The exact sum, reduced modulo 256 when it is stored in a byte (R120, R125). -/
def sumByte (x y : Byte) : Byte := BitVec.ofNat 8 ((x.toNat + y.toNat) % 256)

/-- The exact product, reduced modulo 256 when it is stored in a byte (R122, R125). -/
def productByte (x y : Byte) : Byte := BitVec.ofNat 8 ((x.toNat * y.toNat) % 256)

/-- The ALU's result: what Add writes to x[a], or what Compare writes to FL. -/
inductive AluResult where
  | sum (v : Byte)
  | flags (fl : Flags)
  deriving DecidableEq, Repr

/-- The ALU: Add, Compare, and the guard against any other tag (R120, R121, R174). -/
def alu (tag : AluTag) (x y : Byte) : Checked AluResult :=
  match tag with
  | .add => .ok (.sum (sumByte x y))
  | .compare => .ok (.flags (compareFlags x y))
  | .other t => .error (.unsupportedAluOperation (.other t))

/-- The decoder's output `alu_op` (R84): Add for ADD, Compare for CMP, none otherwise. -/
def aluOp : Instr → Option AluTag
  | .add _ _ => some .add
  | .cmp _ _ => some .compare
  | .hlt => none
  | .ldi _ _ => none
  | .prn _ => none
  | .mul _ _ => none
  | .push _ => none
  | .pop _ => none
  | .call _ => none
  | .ret => none
  | .jmp _ => none
  | .jeq _ => none
  | .jne _ => none

/-- The write-back of an ALU result into a state: a sum to the register `r`, a comparison to FL (R120). -/
def writeAlu (s : State) (r : RegIndex) : AluResult → State
  | .sum v => s.setReg r v
  | .flags fl => s.setFl fl

/-- An ALU instruction: check a, then b; run the ALU on x[a] and x[b]; write back; pc <- p + 3 (R85, R120). -/
def aluInstr (tag : AluTag) (a b : Byte) (s : State) : Checked State := do
  let ra ← regOperand a
  let rb ← regOperand b
  let v ← alu tag (s.reg ra) (s.reg rb)
  pure ((writeAlu s ra v).advance 3)

end Sys2Proof.Machine
end

