-- ==== Sys2Proof/Machine/Arithmetic.lean ====
section
/-! DEFINITION. MUL, ADD and CMP (spec/43_arithmetic.md). -/

namespace Sys2Proof.Machine

/-- MUL (R122): x[a] <- x[a] * x[b] mod 256; pc <- p + 3; no flag is written. -/
def execMul (a b : Byte) (s : State) : Host.Outcome State Fault Refusal :=
  complete s do
    let ra ← regOperand a
    let rb ← regOperand b
    pure ((s.setReg ra (productByte (s.reg ra) (s.reg rb))).advance 3)

/-- ADD (R123): x[a] <- x[a] + x[b] mod 256, through ALU Add; pc <- p + 3; no flag is written. -/
def execAdd (a b : Byte) (s : State) : Host.Outcome State Fault Refusal :=
  complete s (aluInstr .add a b s)

/-- CMP (R124): FL <- the unsigned comparison of x[a] and x[b], through ALU Compare; pc <- p + 3. -/
def execCmp (a b : Byte) (s : State) : Host.Outcome State Fault Refusal :=
  complete s (aluInstr .compare a b s)

end Sys2Proof.Machine
end

