-- ==== Sys2Proof/Machine/ControlTransfer.lean ====
section
/-! DEFINITION. CALL, RET, JMP, JEQ and JNE (spec/45_control_transfer.md). Every target is an absolute address, a byte (R150). -/

namespace Sys2Proof.Machine

/-- CALL (R151): SP <- SP - 1 mod 256; mem[SP] <- p + 2; pc <- x[a], read after the SP write. -/
def execCall (a : Byte) (s : State) : Host.Outcome State Fault Refusal :=
  complete s do
    let r ← regOperand a
    let s1 := s.decSp
    let s2 ← memWrite s1 s1.stackTop (BitVec.ofNat 8 (s.pc + 2))
    pure (s2.setPc (s2.reg r).toNat)

/-- RET (R152): pc <- mem[SP]; SP is not moved. -/
def execRet (s : State) : Host.Outcome State Fault Refusal :=
  complete s do
    let v ← memRead s s.stackTop
    pure (s.setPc v.toNat)

/-- JMP (R153): pc <- x[a]. -/
def execJmp (a : Byte) (s : State) : Host.Outcome State Fault Refusal :=
  complete s do
    let r ← regOperand a
    pure (s.setPc (s.reg r).toNat)

/-- A conditional jump: the register field is checked on both paths (R85); taken, pc <- x[a]; not taken, pc <- p + 2. -/
def jumpIf (taken : Bool) (a : Byte) (s : State) : Checked State := do
  let r ← regOperand a
  pure (if taken then s.setPc (s.reg r).toNat else s.advance 2)

/-- JEQ (R154): taken if E = 1. -/
def execJeq (a : Byte) (s : State) : Host.Outcome State Fault Refusal :=
  complete s (jumpIf (flagE s.fl) a s)

/-- JNE (R155): taken if E = 0. -/
def execJne (a : Byte) (s : State) : Host.Outcome State Fault Refusal :=
  complete s (jumpIf (!flagE s.fl) a s)

end Sys2Proof.Machine
end

