-- ==== Sys2Proof/Machine/Halt.lean ====
section
/-! DEFINITION. HLT (spec/41_halt.md). -/

namespace Sys2Proof.Machine

/-- HLT (R100): status <- Halted; pc unchanged. -/
def execHlt (s : State) : Host.Outcome State Fault Refusal :=
  complete s (.ok s.halt)

end Sys2Proof.Machine
end

