-- ==== Sys2Proof/Machine/LoadOutput.lean ====
section
/-! DEFINITION. LDI and PRN (spec/42_load_output.md). -/

namespace Sys2Proof.Machine

/-- LDI (R110): x[a] <- imm; pc <- p + 3. -/
def execLdi (a imm : Byte) (s : State) : Host.Outcome State Fault Refusal :=
  complete s do
    let r ← regOperand a
    pure ((s.setReg r (immOperand imm)).advance 3)

/-- PRN (R111): out(x[a]); pc <- p + 2. -/
def execPrn (a : Byte) (s : State) : Host.Outcome State Fault Refusal :=
  complete s do
    let r ← regOperand a
    pure ((s.emit (s.reg r)).advance 2)

end Sys2Proof.Machine
end

