-- ==== Sys2Proof/Machine/Stack.lean ====
section
/-! DEFINITION. PUSH and POP (spec/44_stack.md). The order of the statements is the rules' own (spec/00_scope.md R9): it
decides PUSH R7 and POP R7. -/

namespace Sys2Proof.Machine

/-- PUSH (R141): SP <- SP - 1 mod 256; mem[SP] <- x[a], read after the SP write; pc <- p + 2. -/
def execPush (a : Byte) (s : State) : Host.Outcome State Fault Refusal :=
  complete s do
    let r ← regOperand a
    let s1 := s.decSp
    let s2 ← memWrite s1 s1.stackTop (s1.reg r)
    pure (s2.advance 2)

/-- POP (R142): x[a] <- mem[SP]; SP <- x[7] + 1 mod 256, read after the x[a] write; pc <- p + 2. -/
def execPop (a : Byte) (s : State) : Host.Outcome State Fault Refusal :=
  complete s do
    let r ← regOperand a
    let v ← memRead s s.stackTop
    let s1 := s.setReg r v
    pure (s1.incSp.advance 2)

end Sys2Proof.Machine
end

