-- ==== Sys2Proof/WellFormed.lean ====
section
/-! DEFINITION. Which instructions are well formed: every register field of the format holds a register index, 0 to 7
(spec/10_state.md R22, spec/30_encoding.md R64). An immediate is never checked (R65). -/

namespace Sys2Proof

/-- The register fields of an instruction's format, a before b (R84, R85). -/
def Instr.regFields : Instr → List Byte
  | .hlt => []
  | .ldi a _ => [a]
  | .prn a => [a]
  | .mul a b => [a, b]
  | .add a b => [a, b]
  | .cmp a b => [a, b]
  | .push a => [a]
  | .pop a => [a]
  | .call a => [a]
  | .ret => []
  | .jmp a => [a]
  | .jeq a => [a]
  | .jne a => [a]

/-- A register field's byte names a register (R22, R64). -/
def namesRegister (a : Byte) : Bool := decide (a.toNat ≤ 7)

/-- Every register field names a register. -/
def Instr.wellFormed (i : Instr) : Bool := i.regFields.all namesRegister

/-- The first register field that names no register, a before b (R85). -/
def Instr.firstBadRegister (i : Instr) : Option Byte := i.regFields.find? (fun a => !namesRegister a)

end Sys2Proof
end

