-- ==== Sys2Proof/Decode.lean ====
section
/-! DEFINITION. The decoder (spec/40_fetch_dispatch.md R84, spec/30_encoding.md R60 to R68) and, after it, the encoder
written from the same tables. The decoder compares all 8 bits of the opcode against OPCODE_MAP, which it takes as an
argument; `decode` is the decoder of the default map. -/

namespace Sys2Proof

/-- Why the decoder gives no instruction. -/
inductive DecodeReject where
  /-- the opcode byte is none of OPCODE_MAP's thirteen (R67, R84) -/
  | illegalOpcode (op : Byte)
  /-- fewer than the three bytes that the fetch unit always delivers (R81); it never happens in a step -/
  | shortFetch (count : Nat)
  deriving DecidableEq, Repr

/-- The instruction of a mnemonic with the operand bytes its format takes, the others ignored (R61, R66). -/
def instrOf (m : Mnemonic) (a b : Byte) : Instr :=
  match m with
  | .hlt => .hlt
  | .ldi => .ldi a b
  | .prn => .prn a
  | .mul => .mul a b
  | .add => .add a b
  | .cmp => .cmp a b
  | .push => .push a
  | .pop => .pop a
  | .call => .call a
  | .ret => .ret
  | .jmp => .jmp a
  | .jeq => .jeq a
  | .jne => .jne a

/-- The mnemonic whose opcode is `op`, if there is one: a whole-byte match against the map (R84). -/
def lookupOpcode (om : OpcodeMap) (op : Byte) : Option Mnemonic :=
  Mnemonic.all.find? (fun m => om m == op)

/-- The decoder under an OPCODE_MAP (R84): the three fetched bytes to an instruction, or the rejection. -/
def decodeWith (om : OpcodeMap) (op a b : Byte) : Except DecodeReject Instr :=
  match lookupOpcode om op with
  | some m => .ok (instrOf m a b)
  | none => .error (.illegalOpcode op)

/-- The decoder under the default OPCODE_MAP (R62, R84). -/
def decode (op a b : Byte) : Except DecodeReject Instr := decodeWith Config.opcodeMap op a b

/-- The decoder on a list of bytes, lowest address first: it reads the first three, as the fetch unit delivers them. -/
def decodeBytesWith (om : OpcodeMap) : List Byte → Except DecodeReject Instr
  | op :: a :: b :: _ => decodeWith om op a b
  | short => .error (.shortFetch short.length)

/-- `decodeBytesWith` under the default OPCODE_MAP. -/
def decodeBytes (bytes : List Byte) : Except DecodeReject Instr := decodeBytesWith Config.opcodeMap bytes

/-- The operand bytes of an instruction, lowest address first (R61). -/
def operandBytes : Instr → List Byte
  | .hlt => []
  | .ldi a imm => [a, imm]
  | .prn a => [a]
  | .mul a b => [a, b]
  | .add a b => [a, b]
  | .cmp a b => [a, b]
  | .push a => [a]
  | .pop a => [a]
  | .call a => [a]
  | .ret => []
  | .jmp a => [a]
  | .jeq a => [a]
  | .jne a => [a]

/-- The encoder under an OPCODE_MAP: the instruction's bytes, lowest address first (R60, R61). -/
def encodeWith (om : OpcodeMap) (i : Instr) : List Byte := om i.mnemonic :: operandBytes i

/-- The encoder under the default OPCODE_MAP. -/
def encode (i : Instr) : List Byte := encodeWith Config.opcodeMap i

/-- Byte `k` of an instruction whose bits are `w` and of which the opcode table gives the low `nbits`: bits 8k+7 to 8k, the
bits above `nbits` zero. -/
def tableByte (nbits w k : Nat) : Byte := BitVec.ofNat 8 (w % 2 ^ nbits / 256 ^ k)

/-- The instruction the decoder reads from an instruction whose bits are `w`, numbered as spec/opcode_table.json numbers
them: bits 7 to 0 are the byte at pc, bits 15 to 8 the byte at pc + 1, bits 23 to 16 the byte at pc + 2. -/
def decodeTableWord (nbits w : Nat) : Option Instr :=
  match decodeBytes [tableByte nbits w 0, tableByte nbits w 1, tableByte nbits w 2] with
  | .ok i => some i
  | .error _ => none

end Sys2Proof
end

