-- ==== Sys2Proof/Machine/Fetch.lean ====
section
/-! DEFINITION. The fetch unit (spec/40_fetch_dispatch.md R81 to R83) and, behind it, the decoder with its fault (R84). -/

namespace Sys2Proof.Machine

/-- The fetch unit's outputs `opcode`, `opnd_a` and `opnd_b` (R82). -/
structure Fetched where
  opcode : Byte
  opndA : Byte
  opndB : Byte
  deriving DecidableEq, Repr

/-- The fetch: three reads at pc, pc + 1 and pc + 2, in this order, whatever the instruction (R81, R83). -/
def fetch (s : State) : Checked Fetched := do
  let op ← memRead s s.pc
  let a ← memRead s (s.pc + 1)
  let b ← memRead s (s.pc + 2)
  pure ⟨op, a, b⟩

/-- The decoder's rejection as a fault of the step at `p` (R84, R175). -/
def decodeFault (p : Nat) (op : Byte) : DecodeReject → CoreFault
  | .illegalOpcode _ => .illegalInstruction p op
  | .shortFetch _ => .illegalInstruction p op

/-- Fetch and decode under an OPCODE_MAP (R80, lines 1 to 5 of the step). -/
def fetchDecode (om : OpcodeMap) (s : State) : Checked Instr := do
  let f ← fetch s
  match decodeWith om f.opcode f.opndA f.opndB with
  | .ok i => .ok i
  | .error e => .error (decodeFault s.pc f.opcode e)

end Sys2Proof.Machine
end

