-- ==== Sys2Proof/Machine/Step.lean ====
section
/-! DEFINITION. The step (spec/40_fetch_dispatch.md R80): while status is Running, fetch, decode and run one handler, or take the
fault that the fetch or the decoder raised. With any other status the core has no step (R90). -/

namespace Sys2Proof.Machine

/-- The step under an OPCODE_MAP (R80, R90). -/
def stepWith (om : OpcodeMap) (s : State) : Host.Outcome State Fault Refusal :=
  match s.status with
  | .running =>
    match fetchDecode om s with
    | .ok i => exec i s
    | .error f => .next (takeFault s f)
  | .halted => .fault .noStepHalted
  | .faulted _ => .fault .noStepFaulted

/-- The step under the default OPCODE_MAP. -/
def step (s : State) : Host.Outcome State Fault Refusal := stepWith Config.opcodeMap s

/-- `s` with an instruction stored where the next step fetches it, its three bytes at pc, pc + 1 and pc + 2. The fetch needs
a running machine and a pc of at most 253 (R80, R81): where `s` has neither, the status becomes Running and the pc 0. -/
def State.withFetchWord (s : State) (nbits w : Nat) : State :=
  let p := if s.pc ≤ 253 then s.pc else 0
  { s with
    mem := ((s.mem.put p (tableByte nbits w 0)).put (p + 1) (tableByte nbits w 1)).put (p + 2) (tableByte nbits w 2)
    pc := p
    status := .running }

end Sys2Proof.Machine
end

