-- ==== Sys2Proof/Machine/Control.lean ====
section
/-! DEFINITION. The control logic as the spec tabulates it (spec/40_fetch_dispatch.md R86, R92): the next pc from its five
sources, the stack pointer's update and the next status, each computed from the state at the start of the step. The
handlers do the same work statement by statement; that the two agree is an obligation. -/

namespace Sys2Proof.Machine

/-- The control logic's outputs (R92): `spD` is `sp_d` where `sp_we` is set, none where it is not. -/
structure Control where
  pcD : Nat
  spD : Option Byte
  statusD : Status
  deriving DecidableEq, Repr

/-- x[a] as CALL reads it, after SP <- (SP - 1) mod 256 (R86, R151). -/
def callTarget (r : RegIndex) (s : State) : Byte :=
  if r = Config.spIndex then s.sp - 1 else s.reg r

/-- SP after a POP of `v` into `r`: R7 is read after the write of x[a] (R142). -/
def popSp (r : RegIndex) (v : Byte) (s : State) : Byte :=
  if r = Config.spIndex then v + 1 else s.sp + 1

/-- R86 and R92, one line per instruction; a register field that names no register raises (R85). -/
def controlLogic (i : Instr) (s : State) : Checked Control :=
  match i with
  | .hlt => .ok ⟨s.pc, none, .halted⟩
  | .ldi a _ => do
    let _ ← regOperand a
    pure ⟨s.pc + 3, none, .running⟩
  | .prn a => do
    let _ ← regOperand a
    pure ⟨s.pc + 2, none, .running⟩
  | .mul a b => do
    let _ ← regOperand a
    let _ ← regOperand b
    pure ⟨s.pc + 3, none, .running⟩
  | .add a b => do
    let _ ← regOperand a
    let _ ← regOperand b
    pure ⟨s.pc + 3, none, .running⟩
  | .cmp a b => do
    let _ ← regOperand a
    let _ ← regOperand b
    pure ⟨s.pc + 3, none, .running⟩
  | .push a => do
    let _ ← regOperand a
    pure ⟨s.pc + 2, some (s.sp - 1), .running⟩
  | .pop a => do
    let r ← regOperand a
    let v ← memRead s s.stackTop
    pure ⟨s.pc + 2, some (popSp r v s), .running⟩
  | .call a => do
    let r ← regOperand a
    pure ⟨(callTarget r s).toNat, some (s.sp - 1), .running⟩
  | .ret => do
    let v ← memRead s s.stackTop
    pure ⟨v.toNat, none, .running⟩
  | .jmp a => do
    let r ← regOperand a
    pure ⟨(s.reg r).toNat, none, .running⟩
  | .jeq a => do
    let r ← regOperand a
    pure ⟨if flagE s.fl then (s.reg r).toNat else s.pc + 2, none, .running⟩
  | .jne a => do
    let r ← regOperand a
    pure ⟨if flagE s.fl then s.pc + 2 else (s.reg r).toNat, none, .running⟩

end Sys2Proof.Machine
end

