-- ==== Sys2Proof/Machine/HostView.lean ====
section
/-! DEFINITION. What the outside may read of a state, with no effect on it: Power State (spec/10_state.md R28), the rendering of
the output stream (spec/42_load_output.md R112) and the trace snapshot (spec/60_exceptions.md R185). -/

namespace Sys2Proof.Machine

/-- Power State: true while the machine runs (R28). -/
def powerState (s : State) : Bool := s.status == .running

/-- The host's rendering of one output entry: its decimal form, with no sign and no leading zeros (R112). -/
def decimalLine (v : Byte) : List Char := Nat.toDigits 10 v.toNat

/-- The output stream as the host prints it, one line per entry, in order (R112). -/
def outputLines (s : State) : List (List Char) := s.output.map decimalLine

/-- One field of a trace snapshot: a byte's two hexadecimal digits, or what an open parameter shows instead (log 19). -/
inductive TraceField where
  | hex (hi lo : BitVec 4)
  | shown (text : List Char)
  deriving DecidableEq, Repr

/-- A byte in two-digit hexadecimal. -/
def hexByte (v : Byte) : TraceField := .hex (BitVec.ofNat 4 (v.toNat / 16)) (BitVec.ofNat 4 (v.toNat % 16))

/-- The pc in two-digit hexadecimal. Above 255 the spec states no form: a free value (log 19). -/
def tracePc (p : Nat) : TraceField :=
  if p < 256 then hexByte (BitVec.ofNat 8 p) else .shown (Config.traceWidePc p)

/-- The byte at an address; above 255 TRACE_OOB_READ, and never a fault (R185). -/
def traceByte (s : State) (addr : Nat) : TraceField :=
  match memRead s addr with
  | .ok v => hexByte v
  | .error _ => .shown (Config.traceOobRead addr)

/-- The snapshot (R185): pc, the bytes at pc, pc + 1 and pc + 2, then the eight registers. -/
def traceSnapshot (s : State) : List TraceField :=
  [tracePc s.pc, traceByte s s.pc, traceByte s (s.pc + 1), traceByte s (s.pc + 2)] ++
    (List.finRange 8).map (fun r => hexByte (s.reg r))

end Sys2Proof.Machine
end

