-- ==== Sys2Proof/Machine/Loader.lean ====
section
/-! DEFINITION. Construction and loading (spec/70_reset_and_hazards.md R200 to R204): the reset state for every FL_RESET and
MEM_FILL, and the Loader's contract, from an image's text to memory or LoadError (R201, R202; spec/60_exceptions.md R187).
The Loader runs before the first step; no step calls it. -/

namespace Sys2Proof.Machine

/-- Memory with one value in every cell: what construction leaves for a MEM_FILL (R200). -/
def Memory.filled (fill : Byte) : Memory := (List.range Config.memSize).foldl (fun m a => m.put a fill) []

/-- The state after construction, for an FL_RESET and a MEM_FILL (R32, R200, R204). -/
def construct (flReset : Flags) (memFill : Byte) : State :=
  { State.reset with fl := flReset, mem := Memory.filled memFill }

/-- The two reasons of a LoadError (R202). -/
inductive LoadReason where
  /-- a line that is left after comment and white space is not an 8-character binary literal -/
  | notLiteral
  /-- the image has more than 256 literal lines -/
  | tooLarge
  deriving DecidableEq, Repr

/-- LoadError, code 5 (spec/60_exceptions.md R170): the image line number, counted from 1 over all lines, and the reason. -/
structure LoadError where
  line : Nat
  reason : LoadReason
  deriving DecidableEq, Repr

/-- An image's text cut into its lines. DESIGN CHOICE: a line ends at the newline character (log 17). -/
def splitLines : List Char → List (List Char)
  | [] => [[]]
  | c :: cs =>
    if c = '\n' then [] :: splitLines cs
    else
      match splitLines cs with
      | [] => [[c]]
      | l :: ls => (c :: l) :: ls

/-- R201, 1: everything from the first number sign on is a comment. -/
def stripComment (l : List Char) : List Char := l.takeWhile (fun c => c != '#')

/-- White space: space, tab, carriage return and newline. DESIGN CHOICE (log 17). -/
def isBlankChar (c : Char) : Bool := c == ' ' || c == '\t' || c == '\r' || c == '\n'

/-- R201, 2: leading and trailing white space is stripped. -/
def trimBlanks (l : List Char) : List Char :=
  ((l.dropWhile isBlankChar).reverse.dropWhile isBlankChar).reverse

/-- What a line holds once comment and white space are gone (R201, 1 and 2). -/
def lineBody (l : List Char) : List Char := trimBlanks (stripComment l)

/-- The value of a string of binary digits, most significant first. -/
def binaryValue (l : List Char) : Nat := l.foldl (fun acc c => 2 * acc + (if c = '1' then 1 else 0)) 0

/-- R201, 4: exactly 8 characters, each 0 or 1, read as a base-2 number. -/
def literalByte (l : List Char) : Option Byte :=
  if l.length = 8 ∧ l.all (fun c => c == '0' || c == '1') then some (BitVec.ofNat 8 (binaryValue l)) else none

/-- The Loader from line number `n` and address `addr` on: blank lines are skipped, a literal is written to the next address
through the memory contract, whose OutOfBounds at address 256 is the image being too large (R201, R202). -/
def loadFrom (n addr : Nat) (lines : List (List Char)) (s : State) : Except LoadError State :=
  match lines with
  | [] => .ok s
  | l :: ls =>
    if (lineBody l).isEmpty then loadFrom (n + 1) addr ls s
    else
      match literalByte (lineBody l) with
      | none => .error ⟨n, .notLiteral⟩
      | some v =>
        match memWrite s addr v with
        | .ok t => loadFrom (n + 1) (addr + 1) ls t
        | .error _ => .error ⟨n, .tooLarge⟩

/-- The Loader on an image's lines: line 1 first, from address 0 (R201). -/
def loadLines (lines : List (List Char)) (s : State) : Except LoadError State := loadFrom 1 0 lines s

/-- Stages 1 and 2 of a run (R200): the launch state of an image's text (R204), or LoadError, and then no run (R187). -/
def launch (flReset : Flags) (memFill : Byte) (image : List Char) : Except LoadError State :=
  loadLines (splitLines image) (construct flReset memFill)

/-- The code of LoadError (R170). -/
def LoadError.code (_ : LoadError) : Nat := 5

end Sys2Proof.Machine
end

