-- ==== Sys2Proof/Safety.lean ====
section
/-! DEFINITION. The terms the claims use: what the fetch unit finds at the pc, when a run has ended and ended well
(spec/40_fetch_dispatch.md R91), and the invariant that every step keeps. -/

namespace Sys2Proof.Machine

/-- The machine runs, and the fetch unit's three reads give these bytes (R80, R81). -/
def Fetches (s : State) (op a b : Byte) : Prop :=
  s.status = .running ∧ memRead s s.pc = .ok op ∧ memRead s (s.pc + 1) = .ok a ∧ memRead s (s.pc + 2) = .ok b

/-- The bytes of a mnemonic's instruction run as that instruction, under every legal OPCODE_MAP (R62, R84): the opcode at pc,
the operand bytes after it. -/
def OpcodeRuns (m : Mnemonic) (mk : Byte → Byte → Instr) : Prop :=
  ∀ (om : OpcodeMap), Function.Injective om → ∀ (s : State) (a b : Byte), Fetches s (om m) a b →
    stepWith om s = exec (mk a b) s

/-- After `t`, every fetch that reads address `x` while the byte there is the one `t` has gets the byte `v`, as opcode or as operand,
and a step that fetches it as its opcode runs what it decodes to (spec/20_memory.md R52, spec/70_reset_and_hazards.md R208). -/
def LaterFetchesSee (om : OpcodeMap) (t : State) (x : Nat) (v : Byte) : Prop :=
  memRead t x = .ok v ∧
  ∀ (u : State) (op a b : Byte), memRead u x = memRead t x → Fetches u op a b →
    (u.pc = x → op = v ∧ ∀ i, decodeWith om v a b = .ok i → stepWith om u = exec i u) ∧
    (u.pc + 1 = x → a = v) ∧ (u.pc + 2 = x → b = v)

/-- Two states that agree on everything an instruction reads: all but the output stream and the flags G and L
(spec/10_state.md R26, R30). -/
def SameCore (s t : State) : Prop :=
  s.mem = t.mem ∧ s.regs = t.regs ∧ s.pc = t.pc ∧ s.status = t.status ∧ flagE s.fl = flagE t.fl

/-- The bytes of an image's literal lines, in order (spec/70_reset_and_hazards.md R201). -/
def imageBytes (lines : List (List Char)) : List Byte := lines.filterMap (fun l => literalByte (lineBody l))

/-- A byte as eight binary digits, most significant first (R201). -/
def binaryDigits (v : Byte) : List Char := (List.range 8).map (fun k => if v.getMsbD k then '1' else '0')

/-- The run has ended (R91). -/
def State.ended (s : State) : Bool := !powerState s

/-- The run has ended in Halted, not in a fault (R91): the machine's clean end. -/
def State.cleanEnd (s : State) : Bool := s.status == .halted

/-- At most one of the three flags is set (spec/10_state.md R26). -/
def atMostOneFlag (fl : Flags) : Bool := fl == 0b000 || fl == 0b001 || fl == 0b010 || fl == 0b100

/-- An opcode byte of the default OPCODE_MAP (R67). -/
def isOpcode (op : Byte) : Bool := Mnemonic.all.any (fun m => Config.opcodeMap m == op)

/-- What a fault record may say in a reachable state at pc `p` (spec/60_exceptions.md R170): a fetch fault names address 256
(R87), an invalid register byte is above 7, an illegal opcode is outside the map and stands at `p` (R175), and the ALU's
guard never fires (R121). -/
def faultRecordOk (p : Nat) : CoreFault → Bool
  | .outOfBounds n => n == 256
  | .invalidRegister v => decide (7 < v.toNat)
  | .unsupportedAluOperation _ => false
  | .illegalInstruction q op => q == p && !isOpcode op

/-- The fault record of a status, where there is one, is a reachable one. -/
def statusOk (p : Nat) : Status → Bool
  | .running => true
  | .halted => true
  | .faulted f => faultRecordOk p f

/-- The invariant: memory is in canonical form, pc is at most 256 (R87), at most one flag is set (R26), and a fault record
is one that R170 describes. -/
def State.inv (s : State) : Bool :=
  s.mem.wf && decide (s.pc ≤ 256) && atMostOneFlag s.fl && statusOk s.pc s.status

end Sys2Proof.Machine
end

