-- ==== Sys2Proof/Certificates/Slice0/Obligations.lean ====
section
/-! DEFINITION. The statements for the provers. Rule and decision numbers are those of spec/; "log n" is
notes/assumptions/n.md. A statement quantified over an OPCODE_MAP `om` holds for every legal map, the default among them:
`step` is `stepWith Config.opcodeMap`. Where a statement rests on a decision that the spec marks as its own (92_eei_decisions.md),
its docstring says so and its basis is 'derived'. -/

open Sys2Proof Sys2Proof.Machine

/-! ## Encoding -/

/-- Decode and encode agree, for every instruction, with every operand byte, under every injective OPCODE_MAP and so under
the default one; whatever bytes follow the instruction (R60, R61, R62, R66). -/
def Obligations.DecodeEncodeRoundTrip : Prop :=
  (∀ (om : OpcodeMap), Function.Injective om → ∀ (i : Instr) (x y : Byte),
    decodeBytesWith om (encodeWith om i ++ [x, y]) = .ok i) ∧
  (∀ (i : Instr) (x y : Byte), decodeBytes (encode i ++ [x, y]) = .ok i)

/-- An instruction is its opcode byte and zero, one or two operand bytes at the addresses after it, 1 to 3 bytes in all, as many as
its opcode says (R60): what the decoder answers encodes to the first bytes of the three fetched, as many as its length, and every
word with the same opcode has that length; and of an instruction fetched at pc, byte k of the encoding is the byte at
address pc + k. -/
def Obligations.DecodedBytesReencode : Prop :=
  (∀ (om : OpcodeMap) (op a b : Byte) (i : Instr), decodeWith om op a b = .ok i →
    encodeWith om i = [op, a, b].take i.length ∧ 1 ≤ i.length ∧ i.length ≤ 3 ∧
    ∀ a' b' i', decodeWith om op a' b' = .ok i' → i'.length = i.length) ∧
  (∀ (om : OpcodeMap) (s : State) (i : Instr), s.status = .running → fetchDecode om s = .ok i →
    (encodeWith om i).length = i.length ∧
    ∀ (k : Nat) (v : Byte), (encodeWith om i)[k]? = some v → memRead s (s.pc + k) = .ok v)

/-- The default opcodes, one word of each instruction written out from R62's table and R61's formats, and the byte 0x00, which is
no opcode (R67). The values are the default of OPCODE_MAP, PRESUMED by the spec from general knowledge (log 1). -/
def Obligations.DefaultOpcodesAreTheTable : Prop :=
  decode 0b00000001 0xFF 0xFF = .ok .hlt ∧ decode 0b10000010 0x05 0xC8 = .ok (.ldi 5 200) ∧
  decode 0b01000111 0x02 0xFF = .ok (.prn 2) ∧ decode 0b10100010 0x01 0x06 = .ok (.mul 1 6) ∧
  decode 0b10100000 0x06 0x01 = .ok (.add 6 1) ∧ decode 0b10100111 0x03 0x04 = .ok (.cmp 3 4) ∧
  decode 0b01000101 0x07 0xFF = .ok (.push 7) ∧ decode 0b01000110 0x04 0xFF = .ok (.pop 4) ∧
  decode 0b01010000 0x01 0xFF = .ok (.call 1) ∧ decode 0b00010001 0xFF 0xFF = .ok .ret ∧
  decode 0b01010100 0x03 0xFF = .ok (.jmp 3) ∧ decode 0b01010101 0x02 0xFF = .ok (.jeq 2) ∧
  decode 0b01010110 0x06 0xFF = .ok (.jne 6) ∧ decode 0x00 0x00 0x00 = .error (.illegalOpcode 0x00)

/-- The operand bytes that a format does not use never change what is decoded: both of an F1 instruction, the second of an F2R
instruction (R66). -/
def Obligations.UnusedOperandBytesAreIgnored : Prop :=
  ∀ (om : OpcodeMap) (m : Mnemonic) (a b a' b' : Byte),  Function.Injective om →
    (m.format = .f1 → decodeWith om (om m) a b = decodeWith om (om m) a' b') ∧
    (m.format = .f2r → decodeWith om (om m) a b = decodeWith om (om m) a b')

/-! ## The step, its faults and its end -/

/-- A step runs exactly the handler of the decoded instruction (R89): when the three bytes at the pc decode to a well-formed
instruction, the step is exec of it at the same state. The handler itself moves the pc: the step adds nothing around it. -/
def Obligations.StepRunsTheDecodedInstruction : Prop :=
  ∀ (om : OpcodeMap) (s : State) (op a b : Byte) (i : Instr), Fetches s op a b → decodeWith om op a b = .ok i →
    i.wellFormed = true → stepWith om s = exec i s

/-- An opcode byte outside OPCODE_MAP raises IllegalInstruction, whatever the operand bytes: status records the pc and the byte,
and nothing else changes, the pc included (R67, R175). That an unknown opcode is a fault, and no endless loop, is the spec's
decision D9 (log 9), and the information recorded its decision D13 (log 13). -/
def Obligations.OpcodesOutsideTheMapFault : Prop :=
  ∀ (om : OpcodeMap) (s : State) (op a b : Byte), Fetches s op a b → (∀ m, om m ≠ op) →
    stepWith om s = .next { s with status := .faulted (.illegalInstruction s.pc op) }

/-- A register field above 7 raises InvalidRegister with the first such byte, a before b, in every instruction that has a register
field and on every path of it (R85, R173, by decision D10, log 10); nothing else changes (D12, log 13). -/
def Obligations.FirstBadRegisterFaults : Prop :=
  (∀ (i : Instr) (s : State) (v : Byte), s.status = .running → i.firstBadRegister = some v →
    7 < v.toNat ∧ exec i s = .next { s with status := .faulted (.invalidRegister v) }) ∧
  (∀ (om : OpcodeMap) (s : State) (op a b : Byte) (i : Instr) (v : Byte), Fetches s op a b → decodeWith om op a b = .ok i →
    i.firstBadRegister = some v → stepWith om s = .next { s with status := .faulted (.invalidRegister v) }) ∧
  (∀ (i : Instr), i.firstBadRegister = none ↔ i.wellFormed = true)

/-- The order of the checks of one step (R177), which the spec decides as D8 and D14 (log 8, log 13): OutOfBounds at pc, at pc + 1,
at pc + 2, then IllegalInstruction, then InvalidRegister of a, then of b; and where none applies the step raises nothing. -/
def Obligations.FaultPriorityOrder : Prop :=
  ∀ (om : OpcodeMap) (s : State), s.status = .running →
    if 256 ≤ s.pc then stepWith om s = .next { s with status := .faulted (.outOfBounds s.pc) }
    else if 256 ≤ s.pc + 1 then stepWith om s = .next { s with status := .faulted (.outOfBounds (s.pc + 1)) }
    else if 256 ≤ s.pc + 2 then stepWith om s = .next { s with status := .faulted (.outOfBounds (s.pc + 2)) }
    else ∃ op a b, memRead s s.pc = .ok op ∧ memRead s (s.pc + 1) = .ok a ∧ memRead s (s.pc + 2) = .ok b ∧
      match decodeWith om op a b with
      | .error _ => stepWith om s = .next { s with status := .faulted (.illegalInstruction s.pc op) }
      | .ok i =>
        match i.firstBadRegister with
        | some v => stepWith om s = .next { s with status := .faulted (.invalidRegister v) }
        | none => ∃ t, stepWith om s = .next t ∧ (t.status = .running ∨ t.status = .halted)

/-- No instruction starts at address 254 or 255: whatever stands there, the step faults OutOfBounds(256) (R209, by decision D8,
log 8). An instruction may start at 253, and a sequential advance of 3 from there leads to a fault: with an LDI at 253 the
step after it faults. -/
def Obligations.NoInstructionStartsAbove253 : Prop :=
  (∀ (om : OpcodeMap) (s : State), s.status = .running → (s.pc = 254 ∨ s.pc = 255 ∨ s.pc = 256) →
    stepWith om s = .next { s with status := .faulted (.outOfBounds 256) }) ∧
  (∀ (om : OpcodeMap) (s : State) (r : RegIndex) (imm : Byte), Function.Injective om → s.pc = 253 →
    Fetches s (om .ldi) (regByte r) imm →
    ∃ t, stepWith om s = .next t ∧ t.reg r = imm ∧ t.pc = 256 ∧
      stepWith om t = .next { t with status := .faulted (.outOfBounds 256) })

/-- No handler raises once its operands are registers (R46, R121, R176): every well-formed instruction completes from every
running state, Running or, after HLT, Halted. -/
def Obligations.WellFormedInstructionsComplete : Prop :=
  ∀ (i : Instr) (s : State), s.status = .running → i.wellFormed = true →
    ∃ t, exec i s = .next t ∧ t.status = (if i = .hlt then .halted else .running)

/-- A fault ends the run (R171): the step that raises changes nothing but the status (R176, by decision D12, log 13), and from the
state it leaves the core has no step (log 6). -/
def Obligations.FaultEndsTheRun : Prop :=
  ∀ (om : OpcodeMap) (s t : State) (f : CoreFault), stepWith om s = .next t → t.status = .faulted f →
    t = { s with status := .faulted f } ∧ ∀ u, stepWith om t ≠ .next u

/-- The core has a step exactly while status is Running, and the run has ended exactly where it has none (R80, R90, R91). That a Halted or Faulted core is answered with the host's
outcome fault, and no state, is the model's choice (log 6). -/
def Obligations.StepExistsExactlyWhileRunning : Prop :=
  ∀ (om : OpcodeMap) (s : State),
    ((∃ t, stepWith om s = .next t) ↔ s.status = .running) ∧ (s.ended = true ↔ ∀ t, stepWith om s ≠ .next t) ∧
    (s.status = .halted → stepWith om s = .fault .noStepHalted) ∧
    (∀ f, s.status = .faulted f → stepWith om s = .fault .noStepFaulted)

/-- Every step keeps the invariant: canonical memory, a pc of at most 256 (R87), at most one flag (R26), and a fault record of the
kinds R170 describes. -/
def Obligations.StepKeepsInvariant : Prop :=
  ∀ (s t : State), s.inv = true → step s = .next t → t.inv = true

/-- The reset state meets the invariant. -/
def Obligations.ResetMeetsInvariant : Prop := State.reset.inv = true

/-- Construction, for every FL_RESET and MEM_FILL (R32, R200): R0 to R6 are 0 and SP is 0xF4, every cell holds MEM_FILL, status is
Running and the output empty; that pc is 0 is decision D4 (log 5). The reset state is the one of the defaults (log 2, log 3). -/
def Obligations.ConstructedStateForAnyParameters : Prop :=
  (∀ (fl : Flags) (fill : Byte),
    (∀ r : RegIndex, (construct fl fill).reg r = if r = 7 then 0xF4 else 0) ∧
    (construct fl fill).pc = 0 ∧ (construct fl fill).fl = fl ∧ (construct fl fill).status = .running ∧
    (construct fl fill).output = [] ∧ (construct fl fill).mem.wf = true ∧
    ∀ x, x < 256 → memRead (construct fl fill) x = .ok fill) ∧
  construct 0b000 0x00 = State.reset

/-- In a state whose pc is at most 256, a step's pc stays at most 256 and an OutOfBounds names address 256 (R87). -/
def Obligations.ReachableFetchFaultsNameAddress256 : Prop :=
  ∀ (om : OpcodeMap) (s t : State), s.pc ≤ 256 → stepWith om s = .next t →
    t.pc ≤ 256 ∧ ∀ n, t.status = .faulted (.outOfBounds n) → n = 256 ∧ 254 ≤ s.pc

/-- No step raises UnsupportedAluOperation (R121, R174): the guard is there and no instruction reaches it. -/
def Obligations.NoStepRaisesUnsupportedAlu : Prop :=
  ∀ (om : OpcodeMap) (s t : State) (tag : AluTag), stepWith om s = .next t →
    t.status ≠ .faulted (.unsupportedAluOperation tag)

/-! ## The instructions: result, frame and completion

Each statement gives the next state of an instruction whose register operands are registers, in every running state, and says
that the bytes of the instruction run as it. `regByte r` is the operand byte of register `r`. The operand bytes above 7 are
FirstBadRegisterFaults, the fetch's faults FaultPriorityOrder. -/

/-- HLT (R100): status Halted, all else unchanged, the pc too; and no step follows. -/
def Obligations.HltHalts : Prop :=
  OpcodeRuns .hlt (fun _ _ => .hlt) ∧
  ∀ (s : State), s.status = .running →
    ∃ t, exec .hlt s = .next t ∧ t.status = .halted ∧ t.pc = s.pc ∧ (∀ q, t.reg q = s.reg q) ∧ t.fl = s.fl ∧
      t.output = s.output ∧ (∀ x, memRead t x = memRead s x) ∧ ∀ om u, stepWith om t ≠ .next u

/-- LDI (R110): x[a] <- imm, stored unchanged, for every imm; pc <- p + 3; R7 is a register like the others. -/
def Obligations.LdiLoadsTheImmediate : Prop :=
  OpcodeRuns .ldi .ldi ∧
  ∀ (s : State) (r : RegIndex) (imm : Byte), s.status = .running →
    ∃ t, exec (.ldi (regByte r) imm) s = .next t ∧ (∀ q, t.reg q = if q = r then imm else s.reg q) ∧ t.pc = s.pc + 3 ∧
      t.fl = s.fl ∧ t.status = .running ∧ t.output = s.output ∧ ∀ x, memRead t x = memRead s x

/-- PRN (R111, R112): x[a] is appended to the output stream; pc <- p + 2. -/
def Obligations.PrnAppendsTheRegister : Prop :=
  OpcodeRuns .prn (fun a _ => .prn a) ∧
  ∀ (s : State) (r : RegIndex), s.status = .running →
    ∃ t, exec (.prn (regByte r)) s = .next t ∧ t.output = s.output ++ [s.reg r] ∧ t.pc = s.pc + 2 ∧
      (∀ q, t.reg q = s.reg q) ∧ t.fl = s.fl ∧ t.status = .running ∧ ∀ x, memRead t x = memRead s x

/-- MUL (R122): x[a] <- x[a] * x[b] mod 256, both read before; FL kept; pc <- p + 3. -/
def Obligations.MulMultipliesModulo256 : Prop :=
  OpcodeRuns .mul .mul ∧
  ∀ (s : State) (r q : RegIndex), s.status = .running →
    ∃ t, exec (.mul (regByte r) (regByte q)) s = .next t ∧ (t.reg r).toNat = ((s.reg r).toNat * (s.reg q).toNat) % 256 ∧
      (∀ k, k ≠ r → t.reg k = s.reg k) ∧ t.pc = s.pc + 3 ∧ t.fl = s.fl ∧ t.status = .running ∧ t.output = s.output ∧
      ∀ x, memRead t x = memRead s x

/-- ADD (R123): x[a] <- x[a] + x[b] mod 256; FL kept; pc <- p + 3. -/
def Obligations.AddAddsModulo256 : Prop :=
  OpcodeRuns .add .add ∧
  ∀ (s : State) (r q : RegIndex), s.status = .running →
    ∃ t, exec (.add (regByte r) (regByte q)) s = .next t ∧ (t.reg r).toNat = ((s.reg r).toNat + (s.reg q).toNat) % 256 ∧
      (∀ k, k ≠ r → t.reg k = s.reg k) ∧ t.pc = s.pc + 3 ∧ t.fl = s.fl ∧ t.status = .running ∧ t.output = s.output ∧
      ∀ x, memRead t x = memRead s x

/-- CMP (R124): all three flags are written, exactly one is set, by the unsigned comparison; no register changes; pc <- p + 3. -/
def Obligations.CmpSetsExactlyOneFlag : Prop :=
  OpcodeRuns .cmp .cmp ∧
  ∀ (s : State) (r q : RegIndex), s.status = .running →
    ∃ t, exec (.cmp (regByte r) (regByte q)) s = .next t ∧
      flagE t.fl = decide ((s.reg r).toNat = (s.reg q).toNat) ∧ flagG t.fl = decide ((s.reg q).toNat < (s.reg r).toNat) ∧
      flagL t.fl = decide ((s.reg r).toNat < (s.reg q).toNat) ∧
      (t.fl = 0b001 ∨ t.fl = 0b010 ∨ t.fl = 0b100) ∧ t.pc = s.pc + 3 ∧ (∀ k, t.reg k = s.reg k) ∧ t.status = .running ∧
      t.output = s.output ∧ ∀ x, memRead t x = memRead s x

/-- PUSH (R141): SP <- SP - 1 mod 256, and the byte at the new SP is x[a] as it reads after that write: for R7 the decremented SP
(R9, decision D22, log 12; the wrap is decision D11, log 11). Only that byte of memory changes; pc <- p + 2. -/
def Obligations.PushStoresBelowTheStack : Prop :=
  OpcodeRuns .push (fun a _ => .push a) ∧
  ∀ (s : State) (r : RegIndex), s.status = .running →
    s.decSp.stackTop = (s.reg 7 - 1).toNat ∧
    ∃ t, exec (.push (regByte r)) s = .next t ∧ (∀ q, t.reg q = if q = 7 then s.reg 7 - 1 else s.reg q) ∧
      (∀ x, memRead t x =
        if x = s.decSp.stackTop then .ok (if r = 7 then s.reg 7 - 1 else s.reg r) else memRead s x) ∧
      t.pc = s.pc + 2 ∧ t.fl = s.fl ∧ t.status = .running ∧ t.output = s.output

/-- POP (R142): x[a] <- the byte at SP, then SP <- x[7] + 1 mod 256, so that POP R7 leaves the popped byte plus 1 (R9, decision D22,
log 12; the wrap is decision D11, log 11). Memory keeps the byte; pc <- p + 2. -/
def Obligations.PopLoadsTheTopOfStack : Prop :=
  OpcodeRuns .pop (fun a _ => .pop a) ∧
  ∀ (s : State) (r : RegIndex), s.status = .running →
    ∃ v t, memRead s (s.reg 7).toNat = .ok v ∧ exec (.pop (regByte r)) s = .next t ∧
      (∀ q, t.reg q = if q = 7 then (if r = 7 then v + 1 else s.reg 7 + 1) else if q = r then v else s.reg q) ∧
      t.pc = s.pc + 2 ∧ t.fl = s.fl ∧ t.status = .running ∧ t.output = s.output ∧ ∀ x, memRead t x = memRead s x

/-- CALL (R151): SP <- SP - 1 mod 256, the byte at the new SP is p + 2, and pc <- x[a] as it reads after the SP write: CALL R7 jumps
to the decremented SP (R9, decision D22, log 12; D11, log 11). It holds at every pc a CALL can be fetched from, 253 at most
(R46; log 14). -/
def Obligations.CallPushesTheReturnAddress : Prop :=
  OpcodeRuns .call (fun a _ => .call a) ∧
  ∀ (s : State) (r : RegIndex), s.status = .running → s.pc ≤ 253 →
    s.decSp.stackTop = (s.reg 7 - 1).toNat ∧
    ∃ w t, w.toNat = s.pc + 2 ∧ exec (.call (regByte r)) s = .next t ∧
      t.pc = (if r = 7 then s.reg 7 - 1 else s.reg r).toNat ∧
      (∀ q, t.reg q = if q = 7 then s.reg 7 - 1 else s.reg q) ∧
      (∀ x, memRead t x = if x = s.decSp.stackTop then .ok w else memRead s x) ∧
      t.fl = s.fl ∧ t.status = .running ∧ t.output = s.output

/-- RET (R152): pc <- the byte at SP; SP and every other register stay as they are. -/
def Obligations.RetJumpsWithoutPopping : Prop :=
  OpcodeRuns .ret (fun _ _ => .ret) ∧
  ∀ (s : State), s.status = .running →
    ∃ v t, memRead s (s.reg 7).toNat = .ok v ∧ exec .ret s = .next t ∧ t.pc = v.toNat ∧ (∀ q, t.reg q = s.reg q) ∧
      t.fl = s.fl ∧ t.status = .running ∧ t.output = s.output ∧ ∀ x, memRead t x = memRead s x

/-- JMP (R153): pc <- x[a], and nothing else. -/
def Obligations.JmpJumpsToTheRegister : Prop :=
  OpcodeRuns .jmp (fun a _ => .jmp a) ∧
  ∀ (s : State) (r : RegIndex), s.status = .running →
    ∃ t, exec (.jmp (regByte r)) s = .next t ∧ t.pc = (s.reg r).toNat ∧ (∀ q, t.reg q = s.reg q) ∧ t.fl = s.fl ∧
      t.status = .running ∧ t.output = s.output ∧ ∀ x, memRead t x = memRead s x

/-- JEQ (R154): pc <- x[a] if E is 1, else p + 2, whatever G and L are; nothing else changes. -/
def Obligations.JeqJumpsOnEqual : Prop :=
  OpcodeRuns .jeq (fun a _ => .jeq a) ∧
  ∀ (s : State) (r : RegIndex), s.status = .running →
    ∃ t, exec (.jeq (regByte r)) s = .next t ∧ t.pc = (if flagE s.fl then (s.reg r).toNat else s.pc + 2) ∧
      (∀ q, t.reg q = s.reg q) ∧ t.fl = s.fl ∧ t.status = .running ∧ t.output = s.output ∧ ∀ x, memRead t x = memRead s x

/-- JNE (R155): pc <- x[a] if E is 0, else p + 2, whatever G and L are; nothing else changes. -/
def Obligations.JneJumpsOnNotEqual : Prop :=
  OpcodeRuns .jne (fun a _ => .jne a) ∧
  ∀ (s : State) (r : RegIndex), s.status = .running →
    ∃ t, exec (.jne (regByte r)) s = .next t ∧ t.pc = (if flagE s.fl then s.pc + 2 else (s.reg r).toNat) ∧
      (∀ q, t.reg q = s.reg q) ∧ t.fl = s.fl ∧ t.status = .running ∧ t.output = s.output ∧ ∀ x, memRead t x = memRead s x

/-! ## The blocks: ALU, memory, register file -/

/-- The ALU (R120, R121): Add is the sum modulo 256, Compare the three flags of the unsigned comparison, any other tag the guard's
fault; the decoder selects Add for ADD alone and Compare for CMP alone (R84). An instruction for which the decoder selects a tag
executes as the ALU's operation of that tag on x[a] and x[b]: a sum goes to x[a] and FL stays, flags go to FL and the registers
stay; pc <- p + 3. -/
def Obligations.AluHasAddAndCompareOnly : Prop :=
  (∀ x y : Byte, ∃ v, alu .add x y = .ok (.sum v) ∧ v.toNat = (x.toNat + y.toNat) % 256) ∧
  (∀ x y : Byte, ∃ fl, alu .compare x y = .ok (.flags fl) ∧ flagE fl = decide (x.toNat = y.toNat) ∧
    flagG fl = decide (y.toNat < x.toNat) ∧ flagL fl = decide (x.toNat < y.toNat)) ∧
  (∀ (n : Nat) (x y : Byte), alu (.other n) x y = .error (.unsupportedAluOperation (.other n))) ∧
  (∀ i : Instr, (aluOp i = some .add ↔ i.mnemonic = .add) ∧ (aluOp i = some .compare ↔ i.mnemonic = .cmp) ∧
    ∀ n, aluOp i ≠ some (.other n)) ∧
  (∀ (i : Instr) (tag : AluTag) (s : State), s.status = .running → i.wellFormed = true → aluOp i = some tag →
    ∃ r q v t, i.regFields = [regByte r, regByte q] ∧ alu tag (s.reg r) (s.reg q) = .ok v ∧ exec i s = .next t ∧
      (∀ w, v = .sum w → t.reg r = w ∧ (∀ k, k ≠ r → t.reg k = s.reg k) ∧ t.fl = s.fl) ∧
      (∀ f, v = .flags f → t.fl = f ∧ ∀ k, t.reg k = s.reg k) ∧
      t.pc = s.pc + 3 ∧ t.status = .running ∧ t.output = s.output ∧ ∀ x, memRead t x = memRead s x)

/-- A register write that comes from arithmetic is reduced modulo 256, with no trap: ADD and MUL, on any two registers, the same one
twice included, complete with the low 8 bits of the exact result (R21). -/
def Obligations.ArithmeticWrapsWithoutTrap : Prop :=
  ∀ (s : State) (r q : RegIndex) (x y : Nat), s.status = .running → (s.reg r).toNat = x → (s.reg q).toNat = y →
    (∃ t, exec (.add (regByte r) (regByte q)) s = .next t ∧ t.status = .running ∧ (t.reg r).toNat = (x + y) % 256) ∧
    (∃ t, exec (.mul (regByte r) (regByte q)) s = .next t ∧ t.status = .running ∧ (t.reg r).toNat = (x * y) % 256)

/-- Subtraction of a constant by ADD (R126, which the spec marks as derived): with 256 - c in the second register, ADD subtracts c
modulo 256, for c from 1 to 255. -/
def Obligations.AddingTheComplementSubtracts : Prop :=
  ∀ (s : State) (r q : RegIndex) (c : Byte), s.status = .running → 1 ≤ c.toNat → (s.reg q).toNat = 256 - c.toNat →
    ∃ t, exec (.add (regByte r) (regByte q)) s = .next t ∧ t.reg r = s.reg r - c ∧
      (c.toNat ≤ (s.reg r).toNat → (t.reg r).toNat = (s.reg r).toNat - c.toNat) ∧
      ((s.reg r).toNat < c.toNat → (t.reg r).toNat = (s.reg r).toNat + 256 - c.toNat)

/-- The memory contract (R41, R42): a read or write above 255 raises OutOfBounds with that address; inside, a read gives the cell and a
write sets it and no other cell, and no other state. That a write keeps the canonical form is about the model's list of cells, the
model's choice (log 2). -/
def Obligations.MemoryContract : Prop :=
  (∀ (s : State) (x : Nat), 255 < x → memRead s x = .error (.outOfBounds x)) ∧
  (∀ (s : State) (x : Nat) (v : Byte), 255 < x → memWrite s x v = .error (.outOfBounds x)) ∧
  (∀ (s : State) (x : Nat), x ≤ 255 → ∃ v, memRead s x = .ok v) ∧
  (∀ (s : State) (x : Nat) (v : Byte), x ≤ 255 →
    ∃ t, memWrite s x v = .ok t ∧ memRead t x = .ok v ∧ (∀ y, y ≠ x → memRead t y = memRead s y) ∧
      t = { s with mem := t.mem } ∧ (s.mem.wf = true → t.mem.wf = true))

/-- The register file's contract (R22): exactly the operand bytes 0 to 7 name registers, a byte above raises InvalidRegister with it,
and a register written reads as written while the others keep their values. -/
def Obligations.RegisterFileContract : Prop :=
  (∀ (a : Byte) (r : RegIndex), regOperand a = .ok r ↔ a.toNat = r.val) ∧
  (∀ a : Byte, 7 < a.toNat → regOperand a = .error (.invalidRegister a)) ∧
  (∀ (x : Regs) (r q : RegIndex) (v : Byte), (x.set r v).get q = if q = r then v else x.get q)

/-! ## Relations between instructions -/

/-- A fetch sees every earlier store (R52, R208). PUSH stores x[a] as it reads after the SP write, for R7 the decremented SP, and
CALL at a pc of at most 253 stores p + 2: every later fetch that reads the address stored to, while the byte stands there, gets
that very byte, and as an opcode runs what it decodes to. A store never changes the instruction that makes it: a PUSH or CALL
whose store lands on its own bytes still has its own effect in that step. That the address wraps is decision D11 (log 11),
what PUSH R7 stores and where CALL R7 goes decision D22 (log 12). -/
def Obligations.FetchSeesEarlierStores : Prop :=
  (∀ (om : OpcodeMap) (s : State) (r : RegIndex), s.status = .running →
    ∃ t, exec (.push (regByte r)) s = .next t ∧
      LaterFetchesSee om t s.decSp.stackTop (if r = 7 then s.reg 7 - 1 else s.reg r)) ∧
  (∀ (om : OpcodeMap) (s : State) (r : RegIndex), s.status = .running → s.pc ≤ 253 →
    ∃ w t, w.toNat = s.pc + 2 ∧ exec (.call (regByte r)) s = .next t ∧ LaterFetchesSee om t s.decSp.stackTop w) ∧
  (∀ (om : OpcodeMap) (s : State) (r : RegIndex) (b : Byte), Function.Injective om →
    (s.decSp.stackTop = s.pc ∨ s.decSp.stackTop = s.pc + 1 ∨ s.decSp.stackTop = s.pc + 2) →
    (Fetches s (om .push) (regByte r) b →
      ∃ t, stepWith om s = .next t ∧ t.pc = s.pc + 2 ∧ t.reg 7 = s.reg 7 - 1 ∧
        memRead t s.decSp.stackTop = .ok (if r = 7 then s.reg 7 - 1 else s.reg r)) ∧
    (Fetches s (om .call) (regByte r) b →
      ∃ w t, w.toNat = s.pc + 2 ∧ stepWith om s = .next t ∧ t.pc = (if r = 7 then s.reg 7 - 1 else s.reg r).toNat ∧
        t.reg 7 = s.reg 7 - 1 ∧ memRead t s.decSp.stackTop = .ok w))

/-- The pc of a step is the address of its own opcode byte (R88): an instruction fetched at p finds its opcode there, CALL stores
p + 2, and JEQ and JNE fall through to p + 2. -/
def Obligations.ReturnAddressAndFallThrough : Prop :=
  ∀ (om : OpcodeMap) (s : State) (r : RegIndex) (b : Byte), Function.Injective om →
    (Fetches s (om .call) (regByte r) b →
      ∃ w t, stepWith om s = .next t ∧ memRead t (t.reg 7).toNat = .ok w ∧ w.toNat = s.pc + 2) ∧
    (Fetches s (om .jeq) (regByte r) b → flagE s.fl = false → ∃ t, stepWith om s = .next t ∧ t.pc = s.pc + 2) ∧
    (Fetches s (om .jne) (regByte r) b → flagE s.fl = true → ∃ t, stepWith om s = .next t ∧ t.pc = s.pc + 2)

/-- The stack is descending and SP points at the last byte written (R140): PUSH and CALL decrement SP and write at the new SP, POP
reads at SP and then increments it, RET reads at SP and leaves it; from reset, SP is 0xF4 and the first byte pushed goes to
0xF3. SP stands where no wrap happens, and PUSH and POP name a register other than R7: the wrap is StackPointerWraps, R7 as the
operand PushStoresBelowTheStack and PopLoadsTheTopOfStack. -/
def Obligations.StackDescends : Prop :=
  (∀ (s : State) (r : RegIndex), s.status = .running → 0 < (s.reg 7).toNat →
    (r ≠ 7 → ∃ t, exec (.push (regByte r)) s = .next t ∧ (t.reg 7).toNat = (s.reg 7).toNat - 1 ∧
      memRead t (t.reg 7).toNat = .ok (s.reg r)) ∧
    (s.pc ≤ 253 → ∃ w t, exec (.call (regByte r)) s = .next t ∧ (t.reg 7).toNat = (s.reg 7).toNat - 1 ∧
      memRead t (t.reg 7).toNat = .ok w ∧ w.toNat = s.pc + 2)) ∧
  (∀ (s : State) (r : RegIndex), s.status = .running → (s.reg 7).toNat < 255 → r ≠ 7 →
    ∃ t, exec (.pop (regByte r)) s = .next t ∧ memRead s (s.reg 7).toNat = .ok (t.reg r) ∧
      (t.reg 7).toNat = (s.reg 7).toNat + 1) ∧
  (∀ s : State, s.status = .running →
    ∃ v t, exec .ret s = .next t ∧ memRead s (s.reg 7).toNat = .ok v ∧ t.pc = v.toNat ∧ t.reg 7 = s.reg 7) ∧
  (State.reset.reg 7 = 0xF4 ∧ ∀ r : RegIndex, r ≠ 7 →
    ∃ t, exec (.push (regByte r)) State.reset = .next t ∧ t.reg 7 = 0xF3 ∧ memRead t 0xF3 = .ok (State.reset.reg r))

/-- Stack-pointer arithmetic wraps and raises nothing (R143, by decision D11, log 11). PUSH and CALL at SP = 0, with any register,
leave SP = 255 and write address 255; PUSH R7 stores the decremented SP, 255 (D22, log 12). POP at SP = 255 reads address 255 and
leaves SP = 0, where it names a register other than R7; POP R7 increments the popped byte (D22, log 12), and from 255 it too
leaves SP = 0. -/
def Obligations.StackPointerWraps : Prop :=
  ∀ (s : State) (r : RegIndex), s.status = .running →
    (s.reg 7 = 0 → ∃ t, exec (.push (regByte r)) s = .next t ∧ t.status = .running ∧ t.reg 7 = 255 ∧
      memRead t 255 = .ok (if r = 7 then 255 else s.reg r)) ∧
    (s.reg 7 = 0 → s.pc ≤ 253 → ∃ w t, exec (.call (regByte r)) s = .next t ∧ t.status = .running ∧ t.reg 7 = 255 ∧
      memRead t 255 = .ok w ∧ w.toNat = s.pc + 2) ∧
    (s.reg 7 = 255 → r ≠ 7 → ∃ t, exec (.pop (regByte r)) s = .next t ∧ t.status = .running ∧ t.reg 7 = 0 ∧
      memRead s 255 = .ok (t.reg r)) ∧
    (r = 7 → memRead s (s.reg 7).toNat = .ok 255 →
      ∃ t, exec (.pop (regByte r)) s = .next t ∧ t.status = .running ∧ t.reg 7 = 0)

/-- A PUSH followed by a POP (R144, which the spec derives from its statement order D22, log 12): with neither R7, the register popped
has the value pushed, SP is back and the byte stays in memory; with R7 pushed, the register popped has SP - 1; with R7 popped,
SP is the pushed value plus 1, which for R7 pushed and popped is SP itself. -/
def Obligations.PushThenPop : Prop :=
  ∀ (s : State) (i j : RegIndex), s.status = .running →
    ∃ t u, exec (.push (regByte i)) s = .next t ∧ exec (.pop (regByte j)) t = .next u ∧
      (i ≠ 7 → j ≠ 7 → u.reg j = s.reg i ∧ u.reg 7 = s.reg 7 ∧ memRead u (s.reg 7 - 1).toNat = .ok (s.reg i)) ∧
      (i = 7 → j ≠ 7 → u.reg j = s.reg 7 - 1 ∧ u.reg 7 = s.reg 7) ∧
      (i ≠ 7 → j = 7 → u.reg 7 = s.reg i + 1) ∧
      (i = 7 → j = 7 → u.reg 7 = s.reg 7)

/-- CALL and a RET that finds SP and the stacked byte as CALL left them (R156, R207): the RET goes to the address after the CALL, and
SP is then one below its value before the CALL, because RET does not pop. -/
def Obligations.CallThenRet : Prop :=
  ∀ (s t u : State) (r : RegIndex), s.status = .running → s.pc ≤ 253 → exec (.call (regByte r)) s = .next t →
    u.status = .running → u.reg 7 = t.reg 7 → memRead u (t.reg 7).toNat = memRead t (t.reg 7).toNat →
    ∃ v, exec .ret u = .next v ∧ v.pc = s.pc + 2 ∧ v.reg 7 = s.reg 7 - 1

/-- JEQ and JNE on the same state take opposite paths (R155): one goes to x[a], the other to p + 2. -/
def Obligations.JeqAndJneTakeOppositePaths : Prop :=
  ∀ (s : State) (r : RegIndex), s.status = .running →
    ∃ t u, exec (.jeq (regByte r)) s = .next t ∧ exec (.jne (regByte r)) s = .next u ∧
      ((t.pc = (s.reg r).toNat ∧ u.pc = s.pc + 2) ∨ (t.pc = s.pc + 2 ∧ u.pc = (s.reg r).toNat))

/-! ## Whole-machine rules -/

/-- Only CMP writes FL (R26). -/
def Obligations.OnlyCmpWritesFlags : Prop :=
  ∀ (om : OpcodeMap) (s t : State), stepWith om s = .next t → t.fl ≠ s.fl →
    ∃ a b, fetchDecode om s = .ok (.cmp a b)

/-- Only PRN appends to the output stream, one entry, its register's value; nothing is ever withdrawn (R30, R112). -/
def Obligations.OnlyPrnExtendsOutput : Prop :=
  ∀ (om : OpcodeMap) (s t : State), stepWith om s = .next t →
    t.output = s.output ∨ ∃ r, fetchDecode om s = .ok (.prn (regByte r)) ∧ t.output = s.output ++ [s.reg r]

/-- Only PUSH and CALL write memory, and only the byte at (SP - 1) mod 256 (R45). -/
def Obligations.OnlyPushAndCallStore : Prop :=
  ∀ (om : OpcodeMap) (s t : State) (x : Nat), stepWith om s = .next t → memRead t x ≠ memRead s x →
    (∃ a, fetchDecode om s = .ok (.push a) ∨ fetchDecode om s = .ok (.call a)) ∧ x = (s.reg 7 - 1).toNat

/-- Only HLT sets Halted, and it always does (R28, R100). -/
def Obligations.OnlyHltHalts : Prop :=
  ∀ (om : OpcodeMap) (s t : State), stepWith om s = .next t →
    (t.status = .halted ↔ fetchDecode om s = .ok .hlt)

/-- No instruction reads the output stream or the flags G and L (R26, R30): two states that differ in these alone make steps that
differ in these alone, and they emit the same entry, if any. -/
def Obligations.OutputAndUnreadFlagsAreNotRead : Prop :=
  ∀ (om : OpcodeMap) (s s' t : State), SameCore s s' → stepWith om s = .next t →
    ∃ t' l, stepWith om s' = .next t' ∧ SameCore t t' ∧ t.output = s.output ++ l ∧ t'.output = s'.output ++ l

/-- The handlers do what the control logic's table says (R86, R92): the next pc, the next status, and SP where the table writes it;
and where the table raises, so does the handler. -/
def Obligations.ControlLogicAgreesWithHandlers : Prop :=
  ∀ (i : Instr) (s : State), s.status = .running →
    (∀ c, controlLogic i s = .ok c →
      ∃ t, exec i s = .next t ∧ t.pc = c.pcD ∧ t.status = c.statusD ∧ ∀ v, c.spD = some v → t.reg 7 = v) ∧
    (∀ f, controlLogic i s = .error f → exec i s = .next { s with status := .faulted f })

/-! ## Host interface -/

/-- One line of an image (R201; the white space and the exact 8 characters are decision D18, log 17): comment and surrounding white
space fall away, eight binary digits are their byte, most significant first, nothing else is a literal, and a line of white
space and comment is blank. -/
def Obligations.LoaderReadsOneLine : Prop :=
  (∀ (l : List Char) (v : Byte), literalByte l = some v ↔ l = binaryDigits v) ∧
  (∀ (pre post comment : List Char) (v : Byte), pre.all isBlankChar = true → post.all isBlankChar = true →
    comment = [] ∨ comment.head? = some '#' →
    lineBody (pre ++ binaryDigits v ++ post ++ comment) = binaryDigits v ∧ lineBody (pre ++ comment) = [])

/-- The Loader (R201): where it succeeds, the image's bytes stand at 0, 1, 2 and on, every other cell is as construction left it, and
nothing but memory changes. -/
def Obligations.LoaderPlacesTheImage : Prop :=
  ∀ (lines : List (List Char)) (s t : State), loadLines lines s = .ok t →
    (∀ x v, (imageBytes lines)[x]? = some v → memRead t x = .ok v) ∧
    (∀ x, (imageBytes lines).length ≤ x → memRead t x = memRead s x) ∧
    t = { s with mem := t.mem } ∧ (s.mem.wf = true → t.mem.wf = true)

/-- LoadError (R202; that only literal lines count is decision D18, log 17): the Loader succeeds exactly where every line that is not
blank is a literal and there are at most 256 of them. -/
def Obligations.LoaderAcceptsExactly : Prop :=
  ∀ (lines : List (List Char)) (s : State),
    (∃ t, loadLines lines s = .ok t) ↔
      (∀ l ∈ lines, lineBody l ≠ [] → ∃ v, literalByte (lineBody l) = some v) ∧ (imageBytes lines).length ≤ 256

/-- The trace snapshot (R185) of a state whose three bytes lie in memory: pc, these bytes and the eight registers, each as two
hexadecimal digits. What it shows for an address above 255 is open (D21, log 19). -/
def Obligations.TraceShowsPcBytesAndRegisters : Prop :=
  (∀ v : Byte, ∃ hi lo : BitVec 4, hexByte v = .hex hi lo ∧ 16 * hi.toNat + lo.toNat = v.toNat) ∧
  (∀ (s : State) (op a b : Byte), memRead s s.pc = .ok op → memRead s (s.pc + 1) = .ok a → memRead s (s.pc + 2) = .ok b →
    traceSnapshot s =
      [hexByte (BitVec.ofNat 8 s.pc), hexByte op, hexByte a, hexByte b, hexByte (s.reg 0), hexByte (s.reg 1),
        hexByte (s.reg 2), hexByte (s.reg 3), hexByte (s.reg 4), hexByte (s.reg 5), hexByte (s.reg 6), hexByte (s.reg 7)])
end

