-- ==== Sys2Proof/Laws/Decode.lean ====
section
/-! SUPPORT. The small lemmas of the decoder's parts: the opcode look-up under an injective map, and the instruction made from
a mnemonic and its operand bytes. -/

namespace Sys2Proof

theorem Mnemonic.mem_all (m : Mnemonic) : m ∈ Mnemonic.all := by cases m <;> decide

theorem Config.opcodeMap_injective : Function.Injective Config.opcodeMap := by
  intro m n; cases m <;> cases n <;> simp [Config.opcodeMap]

/-- An opcode found is the opcode of the mnemonic found. -/
theorem lookupOpcode_some {om : OpcodeMap} {op : Byte} {m : Mnemonic} (h : lookupOpcode om op = some m) : om m = op := by
  have := List.find?_some h
  simpa using this

/-- Under an injective map, every mnemonic's opcode is found as that mnemonic. -/
theorem lookupOpcode_opcode {om : OpcodeMap} (h : Function.Injective om) (m : Mnemonic) :
    lookupOpcode om (om m) = some m := by
  cases hf : lookupOpcode om (om m) with
  | none =>
    have := List.find?_eq_none.1 hf m (Mnemonic.mem_all m)
    simp at this
  | some n => rw [h (lookupOpcode_some hf)]

/-- A byte outside the map is not found. -/
theorem lookupOpcode_none {om : OpcodeMap} {op : Byte} : lookupOpcode om op = none ↔ ∀ m, om m ≠ op := by
  refine ⟨fun h m hm => ?_, fun h => List.find?_eq_none.2 fun m _ => by simpa using h m⟩
  have := List.find?_eq_none.1 h m (Mnemonic.mem_all m)
  simp [hm] at this

@[simp] theorem instrOf_mnemonic (m : Mnemonic) (a b : Byte) : (instrOf m a b).mnemonic = m := by cases m <;> rfl

/-- What the decoder can do: an instruction of the mnemonic with this opcode, or the rejection of the opcode. -/
theorem decodeWith_cases (om : OpcodeMap) (op a b : Byte) :
    (∃ m, om m = op ∧ decodeWith om op a b = .ok (instrOf m a b)) ∨
      ((∀ m, om m ≠ op) ∧ decodeWith om op a b = .error (.illegalOpcode op)) := by
  unfold decodeWith
  cases h : lookupOpcode om op with
  | some m => exact .inl ⟨m, lookupOpcode_some h, rfl⟩
  | none => exact .inr ⟨lookupOpcode_none.1 h, rfl⟩

end Sys2Proof
end

