-- ==== Sys2Proof/Laws/State.lean ====
section
/-! SUPPORT. One lemma for each field of State under each update of Machine/Ops.lean, and the register reads under each
update, so that no proof unfolds a record update. -/

namespace Sys2Proof.Machine

/-! ## setMem -/

@[simp] theorem State.setMem_mem (s : State) (m : Memory) : (s.setMem m).mem = m := rfl
@[simp] theorem State.setMem_regs (s : State) (m : Memory) : (s.setMem m).regs = s.regs := rfl
@[simp] theorem State.setMem_pc (s : State) (m : Memory) : (s.setMem m).pc = s.pc := rfl
@[simp] theorem State.setMem_fl (s : State) (m : Memory) : (s.setMem m).fl = s.fl := rfl
@[simp] theorem State.setMem_status (s : State) (m : Memory) : (s.setMem m).status = s.status := rfl
@[simp] theorem State.setMem_output (s : State) (m : Memory) : (s.setMem m).output = s.output := rfl

/-! ## setReg -/

@[simp] theorem State.setReg_mem (s : State) (r : RegIndex) (v : Byte) : (s.setReg r v).mem = s.mem := rfl
@[simp] theorem State.setReg_regs (s : State) (r : RegIndex) (v : Byte) : (s.setReg r v).regs = s.regs.set r v := rfl
@[simp] theorem State.setReg_pc (s : State) (r : RegIndex) (v : Byte) : (s.setReg r v).pc = s.pc := rfl
@[simp] theorem State.setReg_fl (s : State) (r : RegIndex) (v : Byte) : (s.setReg r v).fl = s.fl := rfl
@[simp] theorem State.setReg_status (s : State) (r : RegIndex) (v : Byte) : (s.setReg r v).status = s.status := rfl
@[simp] theorem State.setReg_output (s : State) (r : RegIndex) (v : Byte) : (s.setReg r v).output = s.output := rfl

/-! ## setPc -/

@[simp] theorem State.setPc_mem (s : State) (p : Nat) : (s.setPc p).mem = s.mem := rfl
@[simp] theorem State.setPc_regs (s : State) (p : Nat) : (s.setPc p).regs = s.regs := rfl
@[simp] theorem State.setPc_pc (s : State) (p : Nat) : (s.setPc p).pc = p := rfl
@[simp] theorem State.setPc_fl (s : State) (p : Nat) : (s.setPc p).fl = s.fl := rfl
@[simp] theorem State.setPc_status (s : State) (p : Nat) : (s.setPc p).status = s.status := rfl
@[simp] theorem State.setPc_output (s : State) (p : Nat) : (s.setPc p).output = s.output := rfl

/-! ## advance -/

@[simp] theorem State.advance_mem (s : State) (n : Nat) : (s.advance n).mem = s.mem := rfl
@[simp] theorem State.advance_regs (s : State) (n : Nat) : (s.advance n).regs = s.regs := rfl
@[simp] theorem State.advance_pc (s : State) (n : Nat) : (s.advance n).pc = s.pc + n := rfl
@[simp] theorem State.advance_fl (s : State) (n : Nat) : (s.advance n).fl = s.fl := rfl
@[simp] theorem State.advance_status (s : State) (n : Nat) : (s.advance n).status = s.status := rfl
@[simp] theorem State.advance_output (s : State) (n : Nat) : (s.advance n).output = s.output := rfl

/-! ## setFl -/

@[simp] theorem State.setFl_mem (s : State) (v : Flags) : (s.setFl v).mem = s.mem := rfl
@[simp] theorem State.setFl_regs (s : State) (v : Flags) : (s.setFl v).regs = s.regs := rfl
@[simp] theorem State.setFl_pc (s : State) (v : Flags) : (s.setFl v).pc = s.pc := rfl
@[simp] theorem State.setFl_fl (s : State) (v : Flags) : (s.setFl v).fl = v := rfl
@[simp] theorem State.setFl_status (s : State) (v : Flags) : (s.setFl v).status = s.status := rfl
@[simp] theorem State.setFl_output (s : State) (v : Flags) : (s.setFl v).output = s.output := rfl

/-! ## halt -/

@[simp] theorem State.halt_mem (s : State) : s.halt.mem = s.mem := rfl
@[simp] theorem State.halt_regs (s : State) : s.halt.regs = s.regs := rfl
@[simp] theorem State.halt_pc (s : State) : s.halt.pc = s.pc := rfl
@[simp] theorem State.halt_fl (s : State) : s.halt.fl = s.fl := rfl
@[simp] theorem State.halt_status (s : State) : s.halt.status = .halted := rfl
@[simp] theorem State.halt_output (s : State) : s.halt.output = s.output := rfl

/-! ## emit -/

@[simp] theorem State.emit_mem (s : State) (v : Byte) : (s.emit v).mem = s.mem := rfl
@[simp] theorem State.emit_regs (s : State) (v : Byte) : (s.emit v).regs = s.regs := rfl
@[simp] theorem State.emit_pc (s : State) (v : Byte) : (s.emit v).pc = s.pc := rfl
@[simp] theorem State.emit_fl (s : State) (v : Byte) : (s.emit v).fl = s.fl := rfl
@[simp] theorem State.emit_status (s : State) (v : Byte) : (s.emit v).status = s.status := rfl
@[simp] theorem State.emit_output (s : State) (v : Byte) : (s.emit v).output = s.output ++ [v] := rfl

/-! ## takeFault -/

@[simp] theorem takeFault_mem (s : State) (f : CoreFault) : (takeFault s f).mem = s.mem := rfl
@[simp] theorem takeFault_regs (s : State) (f : CoreFault) : (takeFault s f).regs = s.regs := rfl
@[simp] theorem takeFault_pc (s : State) (f : CoreFault) : (takeFault s f).pc = s.pc := rfl
@[simp] theorem takeFault_fl (s : State) (f : CoreFault) : (takeFault s f).fl = s.fl := rfl
@[simp] theorem takeFault_status (s : State) (f : CoreFault) : (takeFault s f).status = .faulted f := rfl
@[simp] theorem takeFault_output (s : State) (f : CoreFault) : (takeFault s f).output = s.output := rfl

/-! ## Registers -/

/-- The register file's contract: a write changes the register named and no other (R22, R24). -/
theorem Regs.get_set (x : Regs) (r q : RegIndex) (v : Byte) : (x.set r v).get q = if q = r then v else x.get q := by
  fin_cases r <;> fin_cases q <;> rfl

@[simp] theorem State.reg_setReg (s : State) (r q : RegIndex) (v : Byte) :
    (s.setReg r v).reg q = if q = r then v else s.reg q :=
  Regs.get_set s.regs r q v

@[simp] theorem State.reg_setMem (s : State) (m : Memory) (q : RegIndex) : (s.setMem m).reg q = s.reg q := rfl
@[simp] theorem State.reg_setPc (s : State) (p : Nat) (q : RegIndex) : (s.setPc p).reg q = s.reg q := rfl
@[simp] theorem State.reg_advance (s : State) (n : Nat) (q : RegIndex) : (s.advance n).reg q = s.reg q := rfl
@[simp] theorem State.reg_setFl (s : State) (v : Flags) (q : RegIndex) : (s.setFl v).reg q = s.reg q := rfl
@[simp] theorem State.reg_halt (s : State) (q : RegIndex) : s.halt.reg q = s.reg q := rfl
@[simp] theorem State.reg_emit (s : State) (v : Byte) (q : RegIndex) : (s.emit v).reg q = s.reg q := rfl
@[simp] theorem reg_takeFault (s : State) (f : CoreFault) (q : RegIndex) : (takeFault s f).reg q = s.reg q := rfl

/-! ## The stack pointer -/

/-- SP is R7 (R23). -/
theorem State.sp_eq (s : State) : s.sp = s.reg 7 := rfl

@[simp] theorem State.decSp_mem (s : State) : s.decSp.mem = s.mem := rfl
@[simp] theorem State.decSp_pc (s : State) : s.decSp.pc = s.pc := rfl
@[simp] theorem State.decSp_fl (s : State) : s.decSp.fl = s.fl := rfl
@[simp] theorem State.decSp_status (s : State) : s.decSp.status = s.status := rfl
@[simp] theorem State.decSp_output (s : State) : s.decSp.output = s.output := rfl
@[simp] theorem State.reg_decSp (s : State) (q : RegIndex) :
    s.decSp.reg q = if q = 7 then s.reg 7 - 1 else s.reg q :=
  Regs.get_set s.regs Config.spIndex q (s.sp - 1)
@[simp] theorem State.sp_decSp (s : State) : s.decSp.sp = s.sp - 1 := rfl

@[simp] theorem State.incSp_mem (s : State) : s.incSp.mem = s.mem := rfl
@[simp] theorem State.incSp_pc (s : State) : s.incSp.pc = s.pc := rfl
@[simp] theorem State.incSp_fl (s : State) : s.incSp.fl = s.fl := rfl
@[simp] theorem State.incSp_status (s : State) : s.incSp.status = s.status := rfl
@[simp] theorem State.incSp_output (s : State) : s.incSp.output = s.output := rfl
@[simp] theorem State.reg_incSp (s : State) (q : RegIndex) :
    s.incSp.reg q = if q = 7 then s.reg 7 + 1 else s.reg q :=
  Regs.get_set s.regs Config.spIndex q (s.sp + 1)
@[simp] theorem State.sp_incSp (s : State) : s.incSp.sp = s.sp + 1 := rfl

end Sys2Proof.Machine
end

