-- ==== Sys2Proof/Laws/Memory.lean ====
section
/-! SUPPORT. The laws of memory: a read after a write, in any list of cells; and that every memory operation keeps the canonical
form, which the memory of the reset state has. -/

namespace Sys2Proof.Machine

/-! ## A read after a write -/

theorem Memory.get_cellOf (a b : Nat) (v : Byte) :
    Memory.get (cellOf a v) b = if b = a then v else Config.memFill := by
  unfold cellOf
  split
  · rename_i h
    simp [Memory.get, h]
  · simp only [Memory.get]
    split_ifs <;> first | rfl | omega

/-- Below or at the cut, a list of the cells above it reads as MEM_FILL. -/
theorem Memory.get_cellsAbove_le (m : Memory) {a b : Nat} (h : b ≤ a) :
    Memory.get (cellsAbove a m) b = Config.memFill := by
  induction m with
  | nil => rfl
  | cons c m ih =>
    obtain ⟨k, w⟩ := c
    simp only [cellsAbove]
    split_ifs
    · exact ih
    · simp only [Memory.get]
      rw [if_neg (by omega), if_neg (by omega)]

/-- Above the cut, nothing changes. -/
theorem Memory.get_cellsAbove_gt (m : Memory) {a b : Nat} (h : a < b) :
    Memory.get (cellsAbove a m) b = Memory.get m b := by
  induction m with
  | nil => rfl
  | cons c m ih =>
    obtain ⟨k, w⟩ := c
    simp only [cellsAbove]
    split_ifs with hk
    · rw [ih]
      simp only [Memory.get]
      rw [if_pos (by omega)]
    · rfl

/-- A cell put before the cells above it. -/
theorem Memory.get_cellOf_append (a b : Nat) (v : Byte) (m : Memory) :
    Memory.get (cellOf a v ++ cellsAbove a m) b =
      if b = a then v else if b < a then Config.memFill else Memory.get (cellsAbove a m) b := by
  unfold cellOf
  split_ifs with hv hb hlt hb hlt
  · simp [Memory.get_cellsAbove_le m (by omega : b ≤ a), hv]
  · simp [Memory.get_cellsAbove_le m (by omega : b ≤ a)]
  · simp
  · simp [Memory.get, hb]
  · simp only [List.cons_append, Memory.get]
    rw [if_neg (by omega), if_neg (by omega)]
  · simp only [List.cons_append, Memory.get]
    rw [if_pos (by omega)]
    rfl

/-- A read after a write (R41): the written byte at the address written, every other byte as it was. -/
theorem Memory.get_put (m : Memory) (a b : Nat) (v : Byte) :
    Memory.get (Memory.put m a v) b = if b = a then v else Memory.get m b := by
  induction m with
  | nil => exact Memory.get_cellOf a b v
  | cons c m ih =>
    obtain ⟨k, w⟩ := c
    simp only [Memory.put]
    split_ifs with hk hb hb
    · simp only [Memory.get]
      rw [if_pos (by omega), ih, if_pos hb]
    · simp only [Memory.get, ih, if_neg hb]
    · rw [Memory.get_cellOf_append, if_pos hb]
    · rw [Memory.get_cellOf_append, if_neg hb]
      split_ifs with hlt
      · simp only [Memory.get]
        rw [if_neg (by omega), if_neg (by omega)]
      · exact Memory.get_cellsAbove_gt _ (by omega)

/-! ## The canonical form -/

theorem Memory.wfFrom_mono {lo lo' : Nat} (h : lo' ≤ lo) (m : Memory) (hm : Memory.wfFrom lo m = true) :
    Memory.wfFrom lo' m = true := by
  cases m with
  | nil => rfl
  | cons c m =>
    obtain ⟨k, w⟩ := c
    simp only [Memory.wfFrom, Bool.and_eq_true, decide_eq_true_eq] at hm ⊢
    exact ⟨⟨⟨by omega, hm.1.1.2⟩, hm.1.2⟩, hm.2⟩

theorem Memory.wfFrom_cellsAbove {lo a : Nat} (m : Memory) (hm : Memory.wfFrom lo m = true) :
    Memory.wfFrom (a + 1) (cellsAbove a m) = true := by
  induction m generalizing lo with
  | nil => rfl
  | cons c m ih =>
    obtain ⟨k, w⟩ := c
    simp only [Memory.wfFrom, Bool.and_eq_true, decide_eq_true_eq] at hm
    simp only [cellsAbove]
    split_ifs
    · exact ih hm.2
    · simp only [Memory.wfFrom, Bool.and_eq_true, decide_eq_true_eq]
      exact ⟨⟨⟨by omega, hm.1.1.2⟩, hm.1.2⟩, hm.2⟩

theorem Memory.wfFrom_cellOf_append {lo a : Nat} {v : Byte} {m : Memory} (hlo : lo ≤ a) (ha : a < Config.memSize)
    (hm : Memory.wfFrom (a + 1) m = true) : Memory.wfFrom lo (cellOf a v ++ m) = true := by
  unfold cellOf
  split_ifs with hv
  · exact Memory.wfFrom_mono (by omega) m hm
  · simp only [List.cons_append, List.nil_append, Memory.wfFrom, Bool.and_eq_true, decide_eq_true_eq]
    exact ⟨⟨⟨hlo, ha⟩, hv⟩, hm⟩

theorem Memory.wfFrom_put {lo a : Nat} (v : Byte) (m : Memory) (hlo : lo ≤ a) (ha : a < Config.memSize)
    (hm : Memory.wfFrom lo m = true) : Memory.wfFrom lo (Memory.put m a v) = true := by
  induction m generalizing lo with
  | nil => simpa [Memory.put] using Memory.wfFrom_cellOf_append (v := v) (m := []) hlo ha rfl
  | cons c m ih =>
    obtain ⟨k, w⟩ := c
    simp only [Memory.put]
    split_ifs with hk
    · simp only [Memory.wfFrom, Bool.and_eq_true, decide_eq_true_eq] at hm ⊢
      exact ⟨hm.1, ih (by omega) hm.2⟩
    · exact Memory.wfFrom_cellOf_append hlo ha (Memory.wfFrom_cellsAbove _ hm)

/-- A write inside memory keeps the canonical form. -/
theorem Memory.wf_put (m : Memory) (a : Nat) (v : Byte) (ha : a < Config.memSize) (hm : m.wf = true) :
    (m.put a v).wf = true :=
  Memory.wfFrom_put v m (Nat.zero_le a) ha hm

theorem State.reset_mem_wf : State.reset.mem.wf = true := rfl

/-! ## Equal contents are equal lists -/

/-- In canonical form, an address below the bound of the list reads as MEM_FILL. -/
theorem Memory.get_of_lt {lo b : Nat} {m : Memory} (hm : Memory.wfFrom lo m = true) (h : b < lo) :
    Memory.get m b = Config.memFill := by
  cases m with
  | nil => rfl
  | cons c m =>
    obtain ⟨k, w⟩ := c
    simp only [Memory.wfFrom, Bool.and_eq_true, decide_eq_true_eq] at hm
    simp only [Memory.get]
    rw [if_neg (by omega), if_neg (by omega)]

/-! ## Memory filled with one value -/

theorem Memory.foldl_put_get (fill : Byte) (l : List Nat) (m : Memory) (b : Nat) :
    Memory.get (l.foldl (fun m a => m.put a fill) m) b = if b ∈ l then fill else Memory.get m b := by
  induction l generalizing m with
  | nil => simp
  | cons a l ih =>
    simp only [List.foldl_cons, ih, Memory.get_put, List.mem_cons]
    by_cases h1 : b ∈ l <;> by_cases h2 : b = a <;> simp [h1, h2]

theorem Memory.foldl_put_wf (fill : Byte) (l : List Nat) (m : Memory) (hl : ∀ a ∈ l, a < Config.memSize)
    (hm : m.wf = true) : Memory.wf (l.foldl (fun m a => m.put a fill) m) = true := by
  induction l generalizing m with
  | nil => exact hm
  | cons a l ih =>
    exact ih _ (fun b hb => hl b (List.mem_cons_of_mem a hb)) (Memory.wf_put m a fill (hl a List.mem_cons_self) hm)

theorem Memory.get_filled (fill : Byte) (b : Nat) :
    Memory.get (Memory.filled fill) b = if b < Config.memSize then fill else Config.memFill := by
  simp [Memory.filled, Memory.foldl_put_get, Memory.get]

theorem Memory.wf_filled (fill : Byte) : (Memory.filled fill).wf = true :=
  Memory.foldl_put_wf fill _ [] (fun _ ha => List.mem_range.1 ha) rfl

theorem Memory.foldl_put_fill (l : List Nat) : l.foldl (fun m a => Memory.put m a Config.memFill) [] = [] := by
  induction l with
  | nil => rfl
  | cons a l ih => exact ih

@[simp] theorem construct_mem (fl : Flags) (fill : Byte) : (construct fl fill).mem = Memory.filled fill := by
  simp only [construct]

@[simp] theorem construct_reg (fl : Flags) (fill : Byte) (r : RegIndex) :
    (construct fl fill).reg r = State.reset.reg r := by
  simp only [construct, State.reg]

@[simp] theorem construct_pc (fl : Flags) (fill : Byte) : (construct fl fill).pc = State.reset.pc := by
  simp only [construct]

@[simp] theorem construct_fl (fl : Flags) (fill : Byte) : (construct fl fill).fl = fl := by
  simp only [construct]

@[simp] theorem construct_status (fl : Flags) (fill : Byte) : (construct fl fill).status = .running := by
  simp only [construct, State.reset]

@[simp] theorem construct_output (fl : Flags) (fill : Byte) : (construct fl fill).output = [] := by
  simp only [construct, State.reset]

/-- Construction with the default MEM_FILL and FL_RESET is the reset state. -/
theorem construct_default : construct Config.flReset Config.memFill = State.reset := by
  have h : Memory.filled Config.memFill = [] := Memory.foldl_put_fill _
  simp [construct, h, State.reset]

end Sys2Proof.Machine
end

