-- ==== Sys2Proof/Laws/Ops.lean ====
section
/-! SUPPORT. What each shared operation can do, said once: memory accesses, operands, the ALU, the end of a handler and the
conditional jump. The provers cite these instead of unfolding the operations. -/

namespace Sys2Proof.Machine

/-! ## Checked computations -/

@[simp] theorem Checked.ok_bind {α β : Type} (a : α) (f : α → Checked β) : ((.ok a : Checked α) >>= f) = f a := rfl

@[simp] theorem Checked.error_bind {α β : Type} (e : CoreFault) (f : α → Checked β) :
    ((.error e : Checked α) >>= f) = .error e := rfl

@[simp] theorem Checked.pure_eq_ok {α : Type} (a : α) : (pure a : Checked α) = .ok a := rfl

@[simp] theorem complete_ok (s t : State) : complete s (.ok t) = .next t := rfl

@[simp] theorem complete_error (s : State) (f : CoreFault) : complete s (.error f) = .next (takeFault s f) := rfl

/-- A handler always ends in a next state: its result, or the fault taken in the state it started in. -/
theorem complete_cases {s t : State} {r : Checked State} (h : complete s r = .next t) :
    r = .ok t ∨ ∃ f, r = .error f ∧ t = takeFault s f := by
  cases r with
  | ok u => simp only [complete_ok, Host.Outcome.next.injEq] at h; exact .inl (by rw [h])
  | error f => simp only [complete_error, Host.Outcome.next.injEq] at h; exact .inr ⟨f, rfl, h.symm⟩

/-! ## Memory accesses -/

theorem memRead_of_lt {s : State} {a : Nat} (h : a < 256) : memRead s a = .ok (s.mem.get a) := if_pos h

theorem memRead_of_ge {s : State} {a : Nat} (h : 256 ≤ a) : memRead s a = .error (.outOfBounds a) :=
  if_neg (Nat.not_lt.2 h)

theorem memWrite_of_lt {s : State} {a : Nat} (v : Byte) (h : a < 256) :
    memWrite s a v = .ok (s.setMem (s.mem.put a v)) := if_pos h

theorem memWrite_of_ge {s : State} {a : Nat} (v : Byte) (h : 256 ≤ a) :
    memWrite s a v = .error (.outOfBounds a) := if_neg (Nat.not_lt.2 h)

theorem memRead_congr {s t : State} (h : s.mem = t.mem) (a : Nat) : memRead s a = memRead t a := by
  unfold memRead; rw [h]

/-- The top of the stack is an address inside memory, so a data access never raises (R46). -/
theorem State.stackTop_lt (s : State) : s.stackTop < 256 := s.sp.isLt

theorem memRead_stackTop (s : State) : memRead s s.stackTop = .ok (s.mem.get s.stackTop) :=
  memRead_of_lt s.stackTop_lt

theorem memWrite_stackTop (s : State) (v : Byte) :
    memWrite s s.stackTop v = .ok (s.setMem (s.mem.put s.stackTop v)) :=
  memWrite_of_lt v s.stackTop_lt

/-- Every byte after a write: the written one at its address, the others as they were. -/
theorem memRead_put (s : State) (a b : Nat) (v : Byte) (t : State) (ht : t.mem = s.mem.put a v) :
    memRead t b = if b = a ∧ b < 256 then .ok v else memRead s b := by
  unfold memRead
  rw [ht, Memory.get_put, show Config.memSize = 256 from rfl]
  by_cases h2 : b < 256
  · by_cases h1 : b = a
    · rw [if_pos h2, if_pos h1, if_pos ⟨h1, h2⟩]
    · rw [if_pos h2, if_neg h1, if_neg (fun h => h1 h.1), if_pos h2]
  · rw [if_neg h2, if_neg (fun h => h2 h.2), if_neg h2]

/-! ## Operands -/

@[simp] theorem regOperand_regByte (r : RegIndex) : regOperand (regByte r) = .ok r := by
  fin_cases r <;> rfl

theorem regOperand_of_le {a : Byte} (h : a.toNat ≤ 7) : regOperand a = .ok ⟨a.toNat, by omega⟩ :=
  dif_pos (by omega)

theorem regOperand_of_gt {a : Byte} (h : 7 < a.toNat) : regOperand a = .error (.invalidRegister a) :=
  dif_neg (by omega)

/-- What the operand check can do: name a register, or raise InvalidRegister with the byte. -/
theorem regOperand_cases (a : Byte) :
    (∃ r, a = regByte r ∧ regOperand a = .ok r) ∨ (7 < a.toNat ∧ regOperand a = .error (.invalidRegister a)) := by
  by_cases h : a.toNat ≤ 7
  · refine .inl ⟨⟨a.toNat, by omega⟩, ?_, regOperand_of_le h⟩
    simp [regByte]
  · exact .inr ⟨by omega, regOperand_of_gt (by omega)⟩

/-! ## The ALU -/

@[simp] theorem alu_add (x y : Byte) : alu .add x y = .ok (.sum (sumByte x y)) := rfl

@[simp] theorem alu_compare (x y : Byte) : alu .compare x y = .ok (.flags (compareFlags x y)) := rfl

@[simp] theorem alu_other (t : Nat) (x y : Byte) : alu (.other t) x y = .error (.unsupportedAluOperation (.other t)) := rfl

theorem toNat_sumByte (x y : Byte) : (sumByte x y).toNat = (x.toNat + y.toNat) % 256 := by
  simp [sumByte]

theorem toNat_productByte (x y : Byte) : (productByte x y).toNat = (x.toNat * y.toNat) % 256 := by
  simp [productByte]

@[simp] theorem aluInstr_add (ra rb : RegIndex) (s : State) :
    aluInstr .add (regByte ra) (regByte rb) s = .ok ((s.setReg ra (sumByte (s.reg ra) (s.reg rb))).advance 3) := by
  simp [aluInstr, writeAlu]

@[simp] theorem aluInstr_compare (ra rb : RegIndex) (s : State) :
    aluInstr .compare (regByte ra) (regByte rb) s = .ok ((s.setFl (compareFlags (s.reg ra) (s.reg rb))).advance 3) := by
  simp [aluInstr, writeAlu]

/-- A comparison sets one flag, and which one it is. -/
theorem compareFlags_cases (x y : Byte) :
    (x.toNat = y.toNat ∧ compareFlags x y = 0b001) ∨ (y.toNat < x.toNat ∧ compareFlags x y = 0b010) ∨
      (x.toNat < y.toNat ∧ compareFlags x y = 0b100) := by
  unfold compareFlags
  split_ifs with h1 h2
  · exact .inl ⟨h1, rfl⟩
  · exact .inr (.inl ⟨h2, rfl⟩)
  · exact .inr (.inr ⟨by omega, rfl⟩)

/-! ## The conditional jump -/

@[simp] theorem jumpIf_regByte (taken : Bool) (r : RegIndex) (s : State) :
    jumpIf taken (regByte r) s = .ok (if taken then s.setPc (s.reg r).toNat else s.advance 2) := by
  simp [jumpIf]

end Sys2Proof.Machine
end

