-- ==== Sys2Proof/Laws/PerInstr.lean ====
section
/-! SUPPORT. The statements made per instruction. EncodedLength: an instruction's encoding starts with its opcode, is as long
as its format says, 1 to 3 bytes (spec/30_encoding.md R60, R62), and its register fields are the operand bytes that its
format gives to registers (R61). -/

namespace Sys2Proof.Laws.EncodedLength

/-- The encoding of an instruction has its opcode first and its format's length, and its register fields lead its operands. -/
def Statement (i : Instr) : Prop :=
  (encode i).head? = some (Config.opcodeMap i.mnemonic) ∧ (encode i).length = i.length ∧
    1 ≤ i.length ∧ i.length ≤ 3 ∧ i.regFields <+: operandBytes i

theorem hlt : Statement .hlt := ⟨rfl, rfl, Nat.le_of_ble_eq_true rfl, Nat.le_of_ble_eq_true rfl, [], rfl⟩
theorem ldi (a imm : Byte) : Statement (.ldi a imm) := ⟨rfl, rfl, Nat.le_of_ble_eq_true rfl, Nat.le_of_ble_eq_true rfl, [imm], rfl⟩
theorem prn (a : Byte) : Statement (.prn a) := ⟨rfl, rfl, Nat.le_of_ble_eq_true rfl, Nat.le_of_ble_eq_true rfl, [], rfl⟩
theorem mul (a b : Byte) : Statement (.mul a b) := ⟨rfl, rfl, Nat.le_of_ble_eq_true rfl, Nat.le_of_ble_eq_true rfl, [], rfl⟩
theorem add (a b : Byte) : Statement (.add a b) := ⟨rfl, rfl, Nat.le_of_ble_eq_true rfl, Nat.le_of_ble_eq_true rfl, [], rfl⟩
theorem cmp (a b : Byte) : Statement (.cmp a b) := ⟨rfl, rfl, Nat.le_of_ble_eq_true rfl, Nat.le_of_ble_eq_true rfl, [], rfl⟩
theorem push (a : Byte) : Statement (.push a) := ⟨rfl, rfl, Nat.le_of_ble_eq_true rfl, Nat.le_of_ble_eq_true rfl, [], rfl⟩
theorem pop (a : Byte) : Statement (.pop a) := ⟨rfl, rfl, Nat.le_of_ble_eq_true rfl, Nat.le_of_ble_eq_true rfl, [], rfl⟩
theorem call (a : Byte) : Statement (.call a) := ⟨rfl, rfl, Nat.le_of_ble_eq_true rfl, Nat.le_of_ble_eq_true rfl, [], rfl⟩
theorem ret : Statement .ret := ⟨rfl, rfl, Nat.le_of_ble_eq_true rfl, Nat.le_of_ble_eq_true rfl, [], rfl⟩
theorem jmp (a : Byte) : Statement (.jmp a) := ⟨rfl, rfl, Nat.le_of_ble_eq_true rfl, Nat.le_of_ble_eq_true rfl, [], rfl⟩
theorem jeq (a : Byte) : Statement (.jeq a) := ⟨rfl, rfl, Nat.le_of_ble_eq_true rfl, Nat.le_of_ble_eq_true rfl, [], rfl⟩
theorem jne (a : Byte) : Statement (.jne a) := ⟨rfl, rfl, Nat.le_of_ble_eq_true rfl, Nat.le_of_ble_eq_true rfl, [], rfl⟩

end Sys2Proof.Laws.EncodedLength
end

