-- ==== Sys2Proof/Laws/Step.lean ====
section
/-! SUPPORT. What the fetch, the decode and the step can do, said once. -/

namespace Sys2Proof.Machine

/-- The fetch raises at the first of pc, pc + 1 and pc + 2 that lies above 255, and otherwise delivers the three bytes. -/
theorem fetch_cases (s : State) :
    (s.pc ≤ 253 ∧ fetch s = .ok ⟨s.mem.get s.pc, s.mem.get (s.pc + 1), s.mem.get (s.pc + 2)⟩) ∨
      (254 ≤ s.pc ∧ fetch s = .error (.outOfBounds (max s.pc 256))) := by
  by_cases h : s.pc ≤ 253
  · refine .inl ⟨h, ?_⟩
    simp only [fetch, memRead_of_lt (show s.pc < 256 by omega), memRead_of_lt (show s.pc + 1 < 256 by omega),
      memRead_of_lt (show s.pc + 2 < 256 by omega), Checked.ok_bind, Checked.pure_eq_ok]
  · refine .inr ⟨by omega, ?_⟩
    obtain h1 | h1 | h1 : 256 ≤ s.pc ∨ s.pc = 255 ∨ s.pc = 254 := by omega
    · simp [fetch, memRead_of_ge h1, Nat.max_eq_left h1]
    · simp [fetch, h1, memRead_of_lt (show 255 < 256 by omega), memRead_of_ge (show 256 ≤ 256 by omega)]
    · simp [fetch, h1, memRead_of_lt (show 254 < 256 by omega), memRead_of_lt (show 255 < 256 by omega),
        memRead_of_ge (show 256 ≤ 256 by omega)]

/-- What fetch and decode can do: an instruction of the map, the fetch's OutOfBounds, or IllegalInstruction. -/
theorem fetchDecode_cases (om : OpcodeMap) (s : State) :
    (s.pc ≤ 253 ∧ ∃ m, om m = s.mem.get s.pc ∧
        fetchDecode om s = .ok (instrOf m (s.mem.get (s.pc + 1)) (s.mem.get (s.pc + 2)))) ∨
      (254 ≤ s.pc ∧ fetchDecode om s = .error (.outOfBounds (max s.pc 256))) ∨
      (s.pc ≤ 253 ∧ (∀ m, om m ≠ s.mem.get s.pc) ∧
        fetchDecode om s = .error (.illegalInstruction s.pc (s.mem.get s.pc))) := by
  obtain ⟨h, hf⟩ | ⟨h, hf⟩ := fetch_cases s
  · obtain ⟨m, hm, hd⟩ | ⟨hm, hd⟩ :=
      decodeWith_cases om (s.mem.get s.pc) (s.mem.get (s.pc + 1)) (s.mem.get (s.pc + 2))
    · exact .inl ⟨h, m, hm, by simp [fetchDecode, hf, hd]⟩
    · exact .inr (.inr ⟨h, hm, by simp [fetchDecode, hf, hd, decodeFault]⟩)
  · exact .inr (.inl ⟨h, by simp [fetchDecode, hf]⟩)

theorem stepWith_of_ok {om : OpcodeMap} {s : State} {i : Instr} (hs : s.status = .running)
    (h : fetchDecode om s = .ok i) : stepWith om s = exec i s := by
  simp [stepWith, hs, h]

theorem stepWith_of_error {om : OpcodeMap} {s : State} {f : CoreFault} (hs : s.status = .running)
    (h : fetchDecode om s = .error f) : stepWith om s = .next (takeFault s f) := by
  simp [stepWith, hs, h]

/-- A step with a next state was made by a running machine: it ran one handler, or it took the fault of its fetch or
decode. -/
theorem stepWith_cases {om : OpcodeMap} {s t : State} (h : stepWith om s = .next t) :
    s.status = .running ∧
      ((∃ i, fetchDecode om s = .ok i ∧ exec i s = .next t) ∨
        (∃ f, fetchDecode om s = .error f ∧ t = takeFault s f)) := by
  unfold stepWith at h
  split at h
  · rename_i hs
    refine ⟨hs, ?_⟩
    split at h
    · rename_i i hi; exact .inl ⟨i, hi, h⟩
    · rename_i f hf
      simp only [Host.Outcome.next.injEq] at h
      exact .inr ⟨f, hf, h.symm⟩
  · cases h
  · cases h

end Sys2Proof.Machine
end

