-- ==== Sys2Proof/Tests/Slice0.lean ====
section
/-! SUPPORT. The model's own tests: the ill-formed terms WellFormed refuses, the decoding of words written out from the spec's
encodings, single steps whose expected values are vectors of spec/95_test_vectors.md, and a witness for each obligation that
has hypotheses. -/

namespace Sys2Proof.Tests

open Sys2Proof Sys2Proof.Machine

/-- A state with bytes placed from address `p` on and the pc there. -/
def place (p : Nat) (bytes : List Byte) (s : State) : State :=
  ((bytes.zipIdx p).foldl (fun t c => t.setMem (t.mem.put c.2 c.1)) s).setPc p

/-- The next state of a step, if it has one. -/
def nextOf (s : State) : Option State :=
  match step s with
  | .next t => some t
  | .fault _ => none
  | .refused _ => none

/-- The next state of an instruction, if it has one. -/
def execOf (i : Instr) (s : State) : Option State :=
  match exec i s with
  | .next t => some t
  | .fault _ => none
  | .refused _ => none

/-- The reset state with one register changed. -/
def resetReg (r : RegIndex) (v : Byte) : State := State.reset.setReg r v

/-- The reset state with two registers changed. -/
def resetRegs (r : RegIndex) (v : Byte) (q : RegIndex) (w : Byte) : State := (resetReg r v).setReg q w

/-! ## WellFormed: an ill-formed term for each check -/

theorem test_wf_refuses_a : [Instr.ldi 8 0, .prn 8, .mul 8 0, .add 8 0, .cmp 8 0, .push 8, .pop 8, .call 8, .jmp 8, .jeq 200,
    .jne 255].map Instr.wellFormed = List.replicate 11 false := by decide

theorem test_wf_refuses_b : [Instr.mul 7 8, .add 0 8, .cmp 0 255].map Instr.wellFormed = List.replicate 3 false := by decide

theorem test_wf_accepts : [Instr.hlt, .ldi 7 255, .prn 7, .mul 7 7, .add 0 7, .cmp 7 0, .push 7, .pop 0, .call 7, .ret, .jmp 7,
    .jeq 7, .jne 0].map Instr.wellFormed = List.replicate 13 true := by decide

/-! ## Decoding and encoding: words written out from R61 and R62 -/

theorem test_decode_words_one : [decode 0b00000001 0 0, decode 0b10000010 0b00000000 0b00001000, decode 0b01000111 0b00000000 0,
    decode 0b10100010 0b00000000 0b00000001].map Except.toOption =
  [some .hlt, some (.ldi 0 8), some (.prn 0), some (.mul 0 1)] := by decide

theorem test_decode_words_two : [decode 0b10100000 0 1, decode 0b10100111 0 1, decode 0b01000101 1 0x46, decode 0b01000110 2 0,
    decode 0b01010000 1 0].map Except.toOption =
  [some (.add 0 1), some (.cmp 0 1), some (.push 1), some (.pop 2), some (.call 1)] := by decide

theorem test_decode_words_three : [decode 0b00010001 0xFF 0xFF, decode 0b01010100 3 0, decode 0b01010101 2 0,
    decode 0b01010110 3 0].map Except.toOption = [some .ret, some (.jmp 3), some (.jeq 2), some (.jne 3)] := by decide

/-- V-FD-5, V-FD-6, V-FD-7: 0x00, 0xFF and LS-8's LD are no opcodes. -/
theorem test_decode_rejects : decode 0x00 0 0 = .error (.illegalOpcode 0x00) ∧ decode 0xFF 9 9 = .error (.illegalOpcode 0xFF) ∧
    decode 0x83 0 1 = .error (.illegalOpcode 0x83) ∧ decodeBytes [0x01, 0x00] = .error (.shortFetch 2) := by decide

/-- The image of program P1: each instruction's bytes. -/
theorem test_encode_program_p1 : [Instr.ldi 0 8, .ldi 1 9, .mul 0 1, .prn 0, .hlt].flatMap encode =
    [0x82, 0x00, 0x08, 0x82, 0x01, 0x09, 0xA2, 0x00, 0x01, 0x47, 0x00, 0x01] := by decide

/-- R62: thirteen distinct opcodes; R67: 0x00, NOP of LS-8, is not among them. -/
theorem test_opcodes_distinct : (Mnemonic.all.map Config.opcodeMap).Nodup ∧ Mnemonic.all.length = 13 ∧
    isOpcode 0x00 = false ∧ isOpcode 0xA0 = true := by decide

/-- R63: the default map's field AA is the number of operand bytes, C marks the branching instructions, B the ALU's and MUL. -/
theorem test_opcode_layout : ∀ m ∈ Mnemonic.all, (Config.opcodeMap m).toNat / 64 + 1 = m.format.length ∧
    ((Config.opcodeMap m).getLsbD 4 = true ↔ m ∈ [Mnemonic.call, .ret, .jmp, .jeq, .jne]) ∧
    ((Config.opcodeMap m).getLsbD 5 = true ↔ m ∈ [Mnemonic.mul, .add, .cmp]) := by decide

theorem test_table_word : decodeTableWord 24 0xFF0582 = some (.ldi 5 0xFF) ∧ decodeTableWord 8 0x01 = some .hlt ∧
    decodeTableWord 16 0x990745 = some (.push 7) ∧ decodeTableWord 8 0x00 = none := by decide

/-! ## Single steps from spec/95_test_vectors.md -/

/-- V-HLT-1, V-HLT-3. -/
theorem test_hlt : (nextOf (place 0 [0x01, 0, 0] .reset)).map (fun t => (t.status, t.pc)) = some (.halted, 0) ∧
    (step State.reset.halt matches .fault .noStepHalted) = true := by decide

/-- V-FD-13: the bytes after HLT are ignored. -/
theorem test_hlt_ignores_operands : (nextOf (place 0 [0x01, 0xFF, 0xFF] .reset)).map State.status = some .halted := by decide

/-- V-LO-2, V-LO-3. -/
theorem test_ldi : (nextOf (place 0 [0x82, 5, 255] .reset)).map (fun t => (t.reg 5, t.pc)) = some (255, 3) ∧
    (nextOf (place 0 [0x82, 7, 0] .reset)).map State.sp = some 0 := by decide

/-- V-LO-4: an LDI at 253. -/
theorem test_ldi_at_253 : (nextOf (place 253 [0x82, 3, 9] .reset)).map (fun t => (t.reg 3, t.pc)) = some (9, 256) := by decide

/-- V-LO-6. -/
theorem test_prn_sp : (nextOf (place 0 [0x47, 7] .reset)).map (fun t => (t.output, t.pc)) = some ([244], 2) := by decide

/-- V-LO-8: appended, in order. -/
theorem test_prn_appends : (nextOf (place 0 [0x47, 0] (State.reset.emit 1))).map State.output = some [1, 0] := by decide

/-- V-AR-8, V-AR-9. -/
theorem test_mul : (nextOf (place 0 [0xA2, 0, 1] (resetRegs 0 255 1 255))).map (fun t => t.reg 0) = some 1 ∧
    (nextOf (place 0 [0xA2, 0, 1] (resetRegs 0 200 1 2))).map (fun t => t.reg 0) = some 144 := by decide

/-- V-AR-10: the same register twice. -/
theorem test_mul_square : (nextOf (place 0 [0xA2, 0, 0] (resetReg 0 15))).map (fun t => (t.reg 0, t.pc)) = some (225, 3) := by
  decide

/-- V-AR-1, V-AR-5: the wrap, and no flag. -/
theorem test_add : (nextOf (place 0 [0xA0, 0, 1] (resetRegs 0 200 1 100))).map (fun t => t.reg 0) = some 44 ∧
    (nextOf (place 0 [0xA0, 0, 1] ((resetRegs 0 255 1 1).setFl 0b100))).map (fun t => (t.reg 0, t.fl)) = some (0, 0b100) := by
  decide

/-- V-AR-19: ADD moves the stack. -/
theorem test_add_sp : (nextOf (place 0 [0xA0, 7, 0] (resetReg 0 12))).map State.sp = some 0 := by decide

/-- V-AR-12, V-AR-13. -/
theorem test_cmp : (nextOf (place 0 [0xA7, 0, 1] (resetRegs 0 5 1 9))).map (fun t => (t.fl, t.pc)) = some (0b100, 3) ∧
    (nextOf (place 0 [0xA7, 0, 1] (resetRegs 0 9 1 5))).map State.fl = some 0b010 := by decide

/-- V-AR-15, V-AR-17: unsigned, and the old flag cleared. -/
theorem test_cmp_unsigned : (nextOf (place 0 [0xA7, 0, 1] (resetRegs 0 0x80 1 0x7F))).map State.fl = some 0b010 ∧
    (nextOf (place 0 [0xA7, 3, 3] ((resetReg 3 42).setFl 0b100))).map State.fl = some 0b001 := by decide

/-- V-ST-1, V-ST-3. -/
theorem test_push : (nextOf (place 0 [0x45, 0] (resetReg 0 5))).map (fun t => (t.sp, t.mem.get 0xF3, t.pc)) = some (0xF3, 5, 2) ∧
    (nextOf (place 0 [0x45, 1] (resetRegs 1 0x33 7 0))).map (fun t => (t.sp, t.mem.get 0xFF)) = some (0xFF, 0x33) := by decide

/-- V-ST-4: PUSH R7 stores the decremented SP. -/
theorem test_push_sp : (nextOf (place 0 [0x45, 7] .reset)).map (fun t => (t.sp, t.mem.get 0xF3)) = some (0xF3, 0xF3) := by decide

/-- V-ST-2, V-ST-6. -/
theorem test_pop : (nextOf (place 0 [0x46, 2] (place 0xF3 [5] (resetReg 7 0xF3)))).map (fun t => (t.reg 2, t.sp, t.mem.get 0xF3))
      = some (5, 0xF4, 5) ∧
    (nextOf (place 0 [0x46, 1] (place 0xFF [0x66] (resetReg 7 0xFF)))).map (fun t => (t.reg 1, t.sp)) = some (0x66, 0) := by decide

/-- V-ST-5: POP R7 leaves the popped byte plus 1. -/
theorem test_pop_sp : (nextOf (place 0 [0x46, 7] (place 0xF3 [0x10] (resetReg 7 0xF3)))).map State.sp = some 0x11 := by decide

/-- V-CT-1, V-CT-4. -/
theorem test_call : (nextOf (place 8 [0x50, 1] (resetRegs 1 20 7 0xF3))).map (fun t => (t.sp, t.mem.get 0xF2, t.pc))
      = some (0xF2, 10, 20) ∧
    (nextOf (place 253 [0x50, 1] (resetReg 1 3))).map (fun t => (t.mem.get 0xF3, t.pc)) = some (255, 3) := by decide

/-- V-CT-2: CALL R7 reads its target after SP moves. -/
theorem test_call_sp : (nextOf (place 8 [0x50, 7] .reset)).map (fun t => (t.sp, t.mem.get 0xF3, t.pc)) = some (0xF3, 10, 243) := by
  decide

/-- V-CT-5: RET does not pop. -/
theorem test_ret : (nextOf (place 28 [0x11] (place 0xF2 [10] (resetReg 7 0xF2)))).map (fun t => (t.pc, t.sp)) = some (10, 0xF2) := by
  decide

/-- V-CT-6: RET with nothing called reads mem[0xF4]. -/
theorem test_ret_from_reset : (nextOf (place 28 [0x11] .reset)).map (fun t => (t.pc, t.sp)) = some (0, 0xF4) := by decide

/-- V-CT-7, V-CT-8. -/
theorem test_jmp : (nextOf (place 5 [0x54, 3] (resetReg 3 12))).map State.pc = some 12 ∧
    (nextOf (place 5 [0x54, 7] .reset)).map State.pc = some 244 := by decide

/-- V-CT-10, V-CT-11, V-CT-12. -/
theorem test_jeq : [0b001, 0b100, 0b000].map (fun fl => (nextOf (place 12 [0x55, 2] ((resetReg 2 15).setFl fl))).map State.pc) =
    [some 15, some 14, some 14] := by decide

/-- V-CT-13 to V-CT-16. -/
theorem test_jne : [0b100, 0b001, 0b000, 0b010].map
      (fun fl => (nextOf (place 20 [0x56, 3] ((resetReg 3 12).setFl fl))).map State.pc) =
    [some 12, some 22, some 12, some 12] := by decide

/-! ## Faults of a step -/

/-- V-FD-2, V-FD-3, V-FD-4: the fetch at the top of memory. -/
theorem test_fault_fetch : [place 254 [0x01] .reset, place 255 [0x11] .reset, State.reset.setPc 256].map
      (fun s => (nextOf s).map (fun t => (t.status, t.pc))) =
    [254, 255, 256].map (fun p => some (.faulted (.outOfBounds 256), p)) := by decide

/-- V-FD-6, V-FD-8: the illegal opcode wins over bad register bytes, the fetch's fault over the illegal opcode. -/
theorem test_fault_illegal : (nextOf (place 5 [0xFF, 9, 9] .reset)).map State.status =
      some (.faulted (.illegalInstruction 5 0xFF)) ∧
    (nextOf (place 254 [0, 0] .reset)).map State.status = some (.faulted (.outOfBounds 256)) := by decide

/-- V-FD-9 to V-FD-12: a before b, and on the path not taken. -/
theorem test_fault_register : [[0x82, 8, 5], [0xA0, 0, 8], [0xA0, 9, 8], [0x55, 0xC8]].map
      (fun bytes => (nextOf (place 0 bytes .reset)).map State.status) =
    [8, 8, 9, 200].map (fun v => some (.faulted (.invalidRegister v))) := by decide

/-- V-ST-8: a faulting PUSH leaves SP. -/
theorem test_fault_keeps_sp : (nextOf (place 0 [0x45, 9] (resetReg 0 9))).map (fun t => (t.status, t.sp, t.pc)) =
    some (.faulted (.invalidRegister 9), 0xF4, 0) := by decide

/-- R170's codes. -/
theorem test_fault_codes : [CoreFault.outOfBounds 256, .invalidRegister 8, .unsupportedAluOperation (.other 2),
    .illegalInstruction 0 0].map CoreFault.code = [1, 2, 3, 4] ∧ (LoadError.mk 1 .notLiteral).code = 5 := by decide

/-- A fetch word runs as the next step's instruction, from a stopped state at the top of memory too. -/
theorem test_fetch_word : (nextOf ((State.reset.halt.setPc 255).withFetchWord 24 0x098207)).map State.status =
      some (.faulted (.illegalInstruction 0 0x07)) ∧
    (nextOf (State.reset.withFetchWord 24 0x090082)).map (fun t => (t.reg 0, t.pc)) = some (9, 3) := by decide

/-! ## Host interface -/

/-- Lines of V-LD-2, V-LD-3, V-LD-4 and a blank line. -/
theorem test_loader_lines :
    literalByte (lineBody [' ', ' ', '0', '0', '0', '0', '0', '0', '0', '1', ' ', ' ', '#', ' ', 'h']) = some 0x01 ∧
    literalByte (lineBody ['0', '0', '0', '0', '0', '0', '1']) = none ∧
    literalByte (lineBody ['0', '0', '0', '0', '0', '0', '0', '2']) = none ∧ lineBody [' ', '#', 'e'] = [] := by decide

/-- W1: 10000010 is 0x82; a blank line is skipped; line 3 fails and is named. -/
theorem test_loader : (match loadLines (splitLines ['1', '0', '0', '0', '0', '0', '1', '0', '\n', '\n', '1']) .reset with
    | .error e => some e
    | .ok _ => none) = some ⟨3, .notLiteral⟩ ∧
    imageBytes [['1', '0', '0', '0', '0', '0', '1', '0', ' ', '#'], [], ['0', '0', '0', '0', '1', '0', '0', '0']] = [0x82, 8] := by
  decide

/-- R112: the decimal lines. -/
theorem test_output_lines : outputLines (((State.reset.emit 0).emit 72).emit 255) = [['0'], ['7', '2'], ['2', '5', '5']] ∧
    powerState State.reset = true ∧ powerState State.reset.halt = false := by decide

/-- R185: the snapshot of the reset state with LDI R0, 8 at 0. -/
theorem test_trace : (traceSnapshot (place 0 [0x82, 0x00, 0x08] .reset)).take 4 =
    [.hex 0 0, .hex 8 2, .hex 0 0, .hex 0 8] ∧ (traceSnapshot State.reset).getLast? = some (.hex 15 4) := by decide

/-! ## Witnesses: states and operands that meet an obligation's hypotheses -/

theorem om_injective : Function.Injective Config.opcodeMap := Config.opcodeMap_injective

theorem witness_JeqAndJneTakeOppositePaths : State.reset.status = .running ∧ (State.reset.setFl 0b001).status = .running := by decide

theorem witness_ConstructedStateForAnyParameters : (0 : Nat) < 256 ∧ (255 : Nat) < 256 := by decide

theorem witness_DecodeEncodeRoundTrip : Function.Injective Config.opcodeMap := om_injective

theorem witness_DecodedBytesReencode : decodeWith Config.opcodeMap 0x50 7 0xFF = .ok (.call 7) ∧
    decodeWith Config.opcodeMap 0x50 8 0 = .ok (.call 8) ∧ (place 253 [0x82, 7, 9] .reset).status = .running ∧
    fetchDecode Config.opcodeMap (place 253 [0x82, 7, 9] .reset) = .ok (.ldi 7 9) ∧
    (encodeWith Config.opcodeMap (.ldi 7 9))[2]? = some 9 := by decide

theorem witness_AluHasAddAndCompareOnly : State.reset.status = .running ∧ (Instr.add 7 7).wellFormed = true ∧
    aluOp (.add 7 7) = some .add ∧ (Instr.cmp 0 7).wellFormed = true ∧ aluOp (.cmp 0 7) = some .compare := by decide

theorem witness_UnusedOperandBytesAreIgnored : Function.Injective Config.opcodeMap ∧ Mnemonic.ret.format = .f1 ∧
    Mnemonic.jne.format = .f2r := ⟨om_injective, rfl, rfl⟩

theorem witness_StepRunsTheDecodedInstruction : Fetches (place 253 [0x45, 7, 9] .reset) 0x45 7 9 ∧
    decodeWith Config.opcodeMap 0x45 7 9 = .ok (.push 7) ∧ (Instr.push 7).wellFormed = true := by
  unfold Fetches; decide

theorem witness_OpcodesOutsideTheMapFault : Fetches State.reset 0x00 0x00 0x00 ∧ ∀ m, Config.opcodeMap m ≠ 0x00 :=
  ⟨by unfold Fetches; decide, fun m => by cases m <;> decide⟩

theorem witness_FirstBadRegisterFaults : State.reset.status = .running ∧ (Instr.add 9 8).firstBadRegister = some 9 ∧
    (Instr.add 7 8).firstBadRegister = some 8 ∧ Fetches (place 0 [0x55, 8, 0] .reset) 0x55 8 0 ∧
    decodeWith Config.opcodeMap 0x55 8 0 = .ok (.jeq 8) ∧ (Instr.jeq 8).firstBadRegister = some 8 := by
  unfold Fetches; decide

/-- One state for each clause of the chain, at its boundary. -/
theorem witness_FaultPriorityOrder : ∀ p ∈ [0, 253, 254, 255, 256, 257], (State.reset.setPc p).status = .running := by decide

theorem witness_NoInstructionStartsAbove253 : (∀ p ∈ [254, 255, 256], (State.reset.setPc p).status = .running) ∧
    (place 253 [0x82, 7, 255] .reset).pc = 253 ∧
    Fetches (place 253 [0x82, 7, 255] .reset) (Config.opcodeMap .ldi) (regByte 7) 255 := by
  unfold Fetches; decide

theorem witness_WellFormedInstructionsComplete : State.reset.status = .running ∧ Instr.hlt.wellFormed = true ∧
    (Instr.cmp 7 7).wellFormed = true := by decide

theorem witness_FaultEndsTheRun : nextOf State.reset = some { State.reset with status := .faulted (.illegalInstruction 0 0) } := by
  decide

theorem witness_StepExistsExactlyWhileRunning : State.reset.status = .running ∧ State.reset.halt.status = .halted ∧
    (takeFault State.reset (.outOfBounds 256)).status = .faulted (.outOfBounds 256) := by decide

theorem witness_StepKeepsInvariant : (place 253 [0x82, 7, 255] .reset).inv = true ∧
    (nextOf (place 253 [0x82, 7, 255] .reset)).isSome = true := by decide

theorem witness_ReachableFetchFaultsNameAddress256 : (State.reset.setPc 256).pc ≤ 256 ∧
    nextOf (State.reset.setPc 256) = some { State.reset with pc := 256, status := .faulted (.outOfBounds 256) } := by decide

theorem witness_NoStepRaisesUnsupportedAlu : (nextOf (place 0 [0xA0, 0, 7] .reset)).isSome = true := by decide

theorem witness_HltHalts : Fetches (place 253 [0x01, 0xFF, 0xFF] .reset) (Config.opcodeMap .hlt) 0xFF 0xFF := by
  unfold Fetches; decide

theorem witness_LdiLoadsTheImmediate : Fetches (place 0 [0x82, 7, 255] .reset) (Config.opcodeMap .ldi) 7 255 := by
  unfold Fetches; decide

theorem witness_PrnAppendsTheRegister : Fetches (place 0 [0x47, 7] .reset) (Config.opcodeMap .prn) 7 0 := by
  unfold Fetches; decide

theorem witness_MulMultipliesModulo256 : Fetches (place 0 [0xA2, 7, 7] .reset) (Config.opcodeMap .mul) 7 7 := by
  unfold Fetches; decide

theorem witness_AddAddsModulo256 : Fetches (place 0 [0xA0, 7, 0] .reset) (Config.opcodeMap .add) 7 0 := by
  unfold Fetches; decide

theorem witness_CmpSetsExactlyOneFlag : Fetches (place 0 [0xA7, 0, 7] .reset) (Config.opcodeMap .cmp) 0 7 := by
  unfold Fetches; decide

theorem witness_PushStoresBelowTheStack : Fetches (place 0 [0x45, 7] .reset) (Config.opcodeMap .push) 7 0 := by
  unfold Fetches; decide

theorem witness_PopLoadsTheTopOfStack : Fetches (place 0 [0x46, 7] .reset) (Config.opcodeMap .pop) 7 0 := by
  unfold Fetches; decide

theorem witness_CallPushesTheReturnAddress : Fetches (place 253 [0x50, 7] .reset) (Config.opcodeMap .call) 7 0 ∧
    (place 253 [0x50, 7] .reset).pc ≤ 253 := by
  unfold Fetches; decide

theorem witness_RetJumpsWithoutPopping : Fetches (place 0 [0x11, 8, 8] .reset) (Config.opcodeMap .ret) 8 8 := by
  unfold Fetches; decide

theorem witness_JmpJumpsToTheRegister : Fetches (place 0 [0x54, 7] .reset) (Config.opcodeMap .jmp) 7 0 := by
  unfold Fetches; decide

theorem witness_JeqJumpsOnEqual : Fetches (place 0 [0x55, 7] .reset) (Config.opcodeMap .jeq) 7 0 := by
  unfold Fetches; decide

theorem witness_JneJumpsOnNotEqual : Fetches (place 0 [0x56, 7] .reset) (Config.opcodeMap .jne) 7 0 := by
  unfold Fetches; decide

theorem witness_ArithmeticWrapsWithoutTrap : (resetRegs 0 255 1 255).status = .running ∧
    ((resetRegs 0 255 1 255).reg 0).toNat = 255 ∧ ((resetRegs 0 255 1 255).reg 1).toNat = 255 := by decide

/-- c = 1 with 255, c = 255 with 1; a minuend of c or more, and one below it. -/
theorem witness_AddingTheComplementSubtracts : ((resetRegs 0 1 1 255).reg 1).toNat = 256 - (1 : Byte).toNat ∧
    ((resetRegs 0 0 1 1).reg 1).toNat = 256 - (255 : Byte).toNat ∧ (1 : Byte).toNat ≤ ((resetRegs 0 1 1 255).reg 0).toNat ∧
    ((resetRegs 0 0 1 1).reg 0).toNat < (255 : Byte).toNat := by decide

theorem witness_MemoryContract : (255 : Nat) < 256 ∧ (255 : Nat) ≤ 255 ∧ State.reset.mem.wf = true := by decide

theorem witness_RegisterFileContract : (7 : Byte).toNat = (7 : RegIndex).val ∧ 7 < (8 : Byte).toNat := by decide

/-- PUSH R0 at 8 with SP = 11 and x[0] = 1 stores HLT's opcode at 10, where the next step fetches it; CALL at 253; and a PUSH and a
CALL at 0 whose stores land on their own bytes, at SP = 1, 2 and 3. -/
theorem witness_FetchSeesEarlierStores :
    (execOf (.push (regByte 0)) (place 8 [0x45, 0] (resetRegs 0 1 7 11))).map (fun t => (t.pc, t.mem.get 10, t.status)) =
      some (10, 1, .running) ∧
    (execOf (.push (regByte 0)) (place 8 [0x45, 0] (resetRegs 0 1 7 11))).map (fun t => [8, 9, 10].map (fun p =>
      fetch (t.setPc p))) = some [.ok ⟨0x45, 0, 1⟩, .ok ⟨0, 1, 0⟩, .ok ⟨1, 0, 0⟩] ∧
    (place 8 [0x45, 0] (resetRegs 0 1 7 11)).decSp.stackTop = 10 ∧ (place 253 [0x50, 7] .reset).pc ≤ 253 ∧
    (∀ v ∈ [(1, 0), (2, 1), (3, 2)], (place 0 [0x45, 7] (resetReg 7 v.1)).decSp.stackTop = v.2) ∧
    (∀ v ∈ [1, 2, 3], Fetches (place 0 [0x45, 7] (resetReg 7 v)) (Config.opcodeMap .push) (regByte 7) 0 ∧
      Fetches (place 0 [0x50, 7] (resetReg 7 v)) (Config.opcodeMap .call) (regByte 7) 0) := by
  unfold Fetches; decide

theorem witness_ReturnAddressAndFallThrough : Fetches (place 253 [0x50, 7] .reset) (Config.opcodeMap .call) (regByte 7) 0 ∧
    Fetches (place 0 [0x55, 7] .reset) (Config.opcodeMap .jeq) (regByte 7) 0 ∧ flagE State.reset.fl = false ∧
    Fetches (place 0 [0x56, 7] (State.reset.setFl 0b001)) (Config.opcodeMap .jne) (regByte 7) 0 ∧ flagE 0b001 = true := by
  unfold Fetches; decide

/-- SP = 1 for PUSH and CALL, SP = 254 for POP: the last values without a wrap. -/
theorem witness_StackDescends : 0 < ((resetReg 7 1).reg 7).toNat ∧ ((resetReg 7 254).reg 7).toNat < 255 ∧
    (resetReg 7 1).pc ≤ 253 ∧ (6 : RegIndex) ≠ 7 := by decide

/-- SP = 0 for PUSH and CALL, SP = 255 for POP, and a popped byte of 255 for POP R7. -/
theorem witness_StackPointerWraps : (resetReg 7 0).reg 7 = 0 ∧ (resetReg 7 255).reg 7 = 255 ∧ (resetReg 7 0).pc ≤ 253 ∧
    (resetReg 7 0).status = .running ∧ (6 : RegIndex) ≠ 7 ∧
    memRead (place 0xF3 [255] (resetReg 7 0xF3)) ((place 0xF3 [255] (resetReg 7 0xF3)).reg 7).toNat = .ok 255 := by decide

theorem witness_PushThenPop : State.reset.status = .running ∧ (6 : RegIndex) ≠ 7 := by decide

/-- CALL R1 at 8 and the state it leaves, moved to a RET at 28. -/
theorem witness_CallThenRet : (execOf (.call (regByte 1)) ((resetReg 1 28).setPc 8)).map
    (fun t => (t.status, (t.setPc 28).reg 7, t.reg 7)) = some (.running, 0xF3, 0xF3) ∧ ((resetReg 1 28).setPc 8).pc ≤ 253 := by
  decide

theorem witness_OnlyCmpWritesFlags : (nextOf (place 0 [0xA7, 0, 0] .reset)).map State.fl = some 0b001 ∧
    State.reset.fl ≠ 0b001 := by decide

theorem witness_OnlyPrnExtendsOutput : (nextOf (place 0 [0x47, 7] .reset)).map State.output = some [0xF4] := by decide

theorem witness_OnlyPushAndCallStore : (nextOf (place 0 [0x45, 7] .reset)).map (fun t => memRead t 0xF3) = some (.ok 0xF3) ∧
    memRead (place 0 [0x45, 7] .reset) 0xF3 ≠ .ok 0xF3 := by decide

theorem witness_OnlyHltHalts : (nextOf (place 0 [0x01] .reset)).map State.status = some .halted := by decide

theorem witness_OutputAndUnreadFlagsAreNotRead :
    SameCore ((place 0 [0x47, 7] .reset).setFl 0b010) (((place 0 [0x47, 7] .reset).setFl 0b100).emit 9) ∧
    (nextOf ((place 0 [0x47, 7] .reset).setFl 0b010)).isSome = true := by
  unfold SameCore; decide

theorem witness_ControlLogicAgreesWithHandlers : State.reset.status = .running ∧
    controlLogic (.pop 7) State.reset = .ok ⟨2, some 1, .running⟩ ∧
    controlLogic (.pop 8) State.reset = .error (.invalidRegister 8) := by decide

theorem witness_LoaderReadsOneLine : [' ', '\t'].all isBlankChar = true ∧ (['#', 'x'] : List Char).head? = some '#' ∧
    literalByte ['1', '0', '0', '0', '0', '0', '1', '0'] = some 0x82 := by decide

theorem witness_LoaderPlacesTheImage : (loadLines [['1', '0', '0', '0', '0', '0', '1', '0'], []] .reset).toOption.map State.mem =
    some [(0, 0x82)] ∧ (imageBytes [['1', '0', '0', '0', '0', '0', '1', '0'], []])[0]? = some 0x82 := by decide

theorem witness_TraceShowsPcBytesAndRegisters : memRead (State.reset.setPc 253) 253 = .ok 0 ∧
    memRead (State.reset.setPc 253) 254 = .ok 0 ∧ memRead (State.reset.setPc 253) 255 = .ok 0 := by decide

end Sys2Proof.Tests
end

/-! ## What a handler can do

`Completes s i t` says that the handler of `i`, started in `s`, runs to its end and leaves `t`. A handler does that, or it raises
InvalidRegister for the first register field that names no register; nothing else can happen. -/

namespace Sys2Proof.Machine

/-- The handler of the instruction, its register fields naming registers, takes `s` to the state given (R100 to R155). -/
inductive Completes (s : State) : Instr → State → Prop
  | hlt : Completes s .hlt s.halt
  | ldi (r : RegIndex) (imm : Byte) : Completes s (.ldi (regByte r) imm) ((s.setReg r imm).advance 3)
  | prn (r : RegIndex) : Completes s (.prn (regByte r)) ((s.emit (s.reg r)).advance 2)
  | mul (r q : RegIndex) :
      Completes s (.mul (regByte r) (regByte q)) ((s.setReg r (productByte (s.reg r) (s.reg q))).advance 3)
  | add (r q : RegIndex) :
      Completes s (.add (regByte r) (regByte q)) ((s.setReg r (sumByte (s.reg r) (s.reg q))).advance 3)
  | cmp (r q : RegIndex) :
      Completes s (.cmp (regByte r) (regByte q)) ((s.setFl (compareFlags (s.reg r) (s.reg q))).advance 3)
  | push (r : RegIndex) :
      Completes s (.push (regByte r))
        ((s.decSp.setMem (s.mem.put s.decSp.stackTop (s.decSp.reg r))).advance 2)
  | pop (r : RegIndex) :
      Completes s (.pop (regByte r)) ((s.setReg r (s.mem.get s.stackTop)).incSp.advance 2)
  | call (r : RegIndex) :
      Completes s (.call (regByte r))
        ((s.decSp.setMem (s.mem.put s.decSp.stackTop (BitVec.ofNat 8 (s.pc + 2)))).setPc (s.decSp.reg r).toNat)
  | ret : Completes s .ret (s.setPc (s.mem.get s.stackTop).toNat)
  | jmp (r : RegIndex) : Completes s (.jmp (regByte r)) (s.setPc (s.reg r).toNat)
  | jeq (r : RegIndex) :
      Completes s (.jeq (regByte r)) (s.setPc (if flagE s.fl then (s.reg r).toNat else s.pc + 2))
  | jne (r : RegIndex) :
      Completes s (.jne (regByte r)) (s.setPc (if flagE s.fl then s.pc + 2 else (s.reg r).toNat))

/-- A completion is the model's: exec answers its result. -/
theorem Completes.exec {s t : State} {i : Instr} (h : Completes s i t) : exec i s = .next t := by
  cases h with
  | hlt => rfl
  | ldi r imm => simp [Machine.exec, execLdi, immOperand]
  | prn r => simp [Machine.exec, execPrn]
  | mul r q => simp [Machine.exec, execMul]
  | add r q => simp [Machine.exec, execAdd]
  | cmp r q => simp [Machine.exec, execCmp]
  | push r => simp [Machine.exec, execPush, memWrite_stackTop]
  | pop r => simp [Machine.exec, execPop, memRead_stackTop]
  | call r => simp [Machine.exec, execCall, memWrite_stackTop]
  | ret => simp [Machine.exec, execRet, memRead_stackTop]
  | jmp r => simp [Machine.exec, execJmp]
  | jeq r => cases hE : flagE s.fl <;> simp [Machine.exec, execJeq, hE, State.advance]
  | jne r => cases hE : flagE s.fl <;> simp [Machine.exec, execJne, hE, State.advance]

/-! ### Register fields -/

/-- The bytes that name a register are the registers' operand bytes (R22, R64). -/
theorem namesRegister_iff {a : Byte} : namesRegister a = true ↔ ∃ r, a = regByte r := by
  obtain ⟨r, rfl, -⟩ | ⟨h, -⟩ := regOperand_cases a
  · exact ⟨fun _ => ⟨r, rfl⟩, fun _ => by fin_cases r <;> rfl⟩
  · refine ⟨fun hn => absurd (of_decide_eq_true hn) (by omega), ?_⟩
    rintro ⟨r, rfl⟩
    fin_cases r <;> exact absurd h (by decide)

theorem not_namesRegister_iff {a : Byte} : (!namesRegister a) = true ↔ 7 < a.toNat := by
  simp [namesRegister]

theorem wellFormed_iff {i : Instr} : i.wellFormed = true ↔ ∀ a ∈ i.regFields, ∃ r, a = regByte r := by
  simp only [Instr.wellFormed, List.all_eq_true, namesRegister_iff]

/-- An instruction is well formed exactly when it has no bad register field (R85). -/
theorem firstBadRegister_eq_none_iff {i : Instr} : i.firstBadRegister = none ↔ i.wellFormed = true := by
  simp [Instr.firstBadRegister, Instr.wellFormed]

/-- A handler that starts with the check of one register field raises for a bad one (R85). -/
theorem complete_regOperand_of_bad {a v : Byte} (s : State) (k : RegIndex → Checked State)
    (h : [a].find? (fun a => !namesRegister a) = some v) :
    complete s (regOperand a >>= k) = .next (takeFault s (.invalidRegister v)) := by
  obtain ⟨r, rfl, -⟩ | ⟨ha, hr⟩ := regOperand_cases a
  · simp [namesRegister_iff.2 ⟨r, rfl⟩] at h
  · obtain rfl : a = v := by simpa [not_namesRegister_iff.2 ha] using h
    simp [hr]

/-- A handler that starts with the checks of two register fields raises for the first bad one, a before b (R85). -/
theorem complete_regOperand₂_of_bad {a b v : Byte} (s : State) (k : RegIndex → RegIndex → Checked State)
    (h : [a, b].find? (fun a => !namesRegister a) = some v) :
    complete s (regOperand a >>= fun r => regOperand b >>= k r) = .next (takeFault s (.invalidRegister v)) := by
  obtain ⟨r, rfl, hr⟩ | ⟨ha, hr⟩ := regOperand_cases a
  · have hb : [b].find? (fun a => !namesRegister a) = some v := by
      simpa [namesRegister_iff.2 ⟨r, rfl⟩] using h
    simpa using complete_regOperand_of_bad s (k r) hb
  · obtain rfl : a = v := by simpa [not_namesRegister_iff.2 ha] using h
    simp [hr]

/-- A bad register field raises InvalidRegister in every instruction that has one, and a fault is taken in the state before the
instruction (R85, R173, R176). -/
theorem exec_of_firstBadRegister {i : Instr} {v : Byte} (s : State) (h : i.firstBadRegister = some v) :
    exec i s = .next (takeFault s (.invalidRegister v)) := by
  cases i with
  | hlt | ret => cases h
  | ldi a | prn a | push a | pop a | call a | jmp a | jeq a | jne a => exact complete_regOperand_of_bad s _ h
  | mul a b | add a b | cmp a b => exact complete_regOperand₂_of_bad s _ h

/-- A well-formed instruction completes from every state (R46, R176). -/
theorem exists_completes_of_wellFormed {i : Instr} (s : State) (h : i.wellFormed = true) : ∃ t, Completes s i t := by
  rw [wellFormed_iff] at h
  cases i with
  | hlt => exact ⟨_, .hlt⟩
  | ret => exact ⟨_, .ret⟩
  | ldi a imm => obtain ⟨r, rfl⟩ := h a (.head _); exact ⟨_, .ldi r imm⟩
  | prn a => obtain ⟨r, rfl⟩ := h a (.head _); exact ⟨_, .prn r⟩
  | push a => obtain ⟨r, rfl⟩ := h a (.head _); exact ⟨_, .push r⟩
  | pop a => obtain ⟨r, rfl⟩ := h a (.head _); exact ⟨_, .pop r⟩
  | call a => obtain ⟨r, rfl⟩ := h a (.head _); exact ⟨_, .call r⟩
  | jmp a => obtain ⟨r, rfl⟩ := h a (.head _); exact ⟨_, .jmp r⟩
  | jeq a => obtain ⟨r, rfl⟩ := h a (.head _); exact ⟨_, .jeq r⟩
  | jne a => obtain ⟨r, rfl⟩ := h a (.head _); exact ⟨_, .jne r⟩
  | mul a b =>
    obtain ⟨r, rfl⟩ := h a (.head _)
    obtain ⟨q, rfl⟩ := h b (.tail _ (.head _))
    exact ⟨_, .mul r q⟩
  | add a b =>
    obtain ⟨r, rfl⟩ := h a (.head _)
    obtain ⟨q, rfl⟩ := h b (.tail _ (.head _))
    exact ⟨_, .add r q⟩
  | cmp a b =>
    obtain ⟨r, rfl⟩ := h a (.head _)
    obtain ⟨q, rfl⟩ := h b (.tail _ (.head _))
    exact ⟨_, .cmp r q⟩

/-- What exec can do: complete, or take the fault of its first bad register field. -/
theorem exec_cases {i : Instr} {s t : State} (h : exec i s = .next t) :
    Completes s i t ∨ ∃ v, i.firstBadRegister = some v ∧ t = takeFault s (.invalidRegister v) := by
  cases hb : i.firstBadRegister with
  | none =>
    obtain ⟨u, hu⟩ := exists_completes_of_wellFormed s (firstBadRegister_eq_none_iff.1 hb)
    obtain rfl : u = t := by simpa [hu.exec] using h
    exact .inl hu
  | some v =>
    rw [exec_of_firstBadRegister s hb] at h
    exact .inr ⟨v, rfl, (Host.Outcome.next.inj h).symm⟩

/-- What a step can do: complete the instruction decoded, or take a fault in a state whose fetch and decode gave no instruction or
one with a bad register field. -/
theorem stepWith_outcome {om : OpcodeMap} {s t : State} (h : stepWith om s = .next t) :
    (∃ i, fetchDecode om s = .ok i ∧ Completes s i t) ∨
      ∃ f, t = takeFault s f ∧ ∀ i, fetchDecode om s = .ok i → i.wellFormed = false := by
  obtain ⟨-, ⟨i, hi, he⟩ | ⟨f, hf, rfl⟩⟩ := stepWith_cases h
  · obtain hc | ⟨v, hv, rfl⟩ := exec_cases he
    · exact .inl ⟨i, hi, hc⟩
    · refine .inr ⟨_, rfl, fun j hj => ?_⟩
      obtain rfl : i = j := Except.ok.inj (hi.symm.trans hj)
      rw [← Bool.not_eq_true, ← firstBadRegister_eq_none_iff, hv]
      exact nofun
  · exact .inr ⟨f, rfl, fun i hi => by rw [hf] at hi; cases hi⟩

/-! ## What an instruction leaves unchanged -/

/-- Only CMP writes FL (R26). -/
theorem Completes.fl_eq {s t : State} {i : Instr} (h : Completes s i t) (hi : ∀ a b, i ≠ .cmp a b) : t.fl = s.fl := by
  cases h with
  | cmp r q => exact absurd rfl (hi _ _)
  | _ => rfl

/-- Only PRN appends to the output, and it appends its register's value (R30, R111). -/
theorem Completes.output_cases {s t : State} {i : Instr} (h : Completes s i t) :
    t.output = s.output ∨ ∃ r, i = .prn (regByte r) ∧ t.output = s.output ++ [s.reg r] := by
  cases h with
  | prn r => exact .inr ⟨r, rfl, rfl⟩
  | _ => exact .inl rfl

/-- Every instruction but HLT keeps the status (R28, R92). -/
theorem Completes.status_eq {s t : State} {i : Instr} (h : Completes s i t) :
    t.status = if i = .hlt then .halted else s.status := by
  cases h with
  | _ => rfl

/-! ## States that differ in the output and in G and L alone

A rule for each operation: what it reads agrees in the two states, and what it leaves agrees again. -/

namespace SameCore

variable {s s' : State}

theorem mem_eq (h : SameCore s s') : s.mem = s'.mem := by
  obtain ⟨hmem, -⟩ := h
  exact hmem

theorem pc_eq (h : SameCore s s') : s.pc = s'.pc := by
  obtain ⟨-, -, hpc, -⟩ := h
  exact hpc

theorem status_eq (h : SameCore s s') : s.status = s'.status := by
  obtain ⟨-, -, -, hstatus, -⟩ := h
  exact hstatus

theorem flagE_eq (h : SameCore s s') : flagE s.fl = flagE s'.fl := by
  obtain ⟨-, -, -, -, hE⟩ := h
  exact hE

theorem reg_eq (h : SameCore s s') (r : RegIndex) : s.reg r = s'.reg r := by
  obtain ⟨-, hregs, -⟩ := h
  simp only [State.reg, hregs]

theorem stackTop_eq (h : SameCore s s') : s.stackTop = s'.stackTop := congrArg BitVec.toNat (h.reg_eq 7)

theorem setMem (h : SameCore s s') {m m' : Memory} (hm : m = m') : SameCore (s.setMem m) (s'.setMem m') := by
  obtain ⟨-, hrest⟩ := h
  exact ⟨hm, hrest⟩

theorem setReg (h : SameCore s s') (r : RegIndex) {v v' : Byte} (hv : v = v') :
    SameCore (s.setReg r v) (s'.setReg r v') := by
  obtain ⟨hmem, hregs, hrest⟩ := h
  exact ⟨hmem, congrArg₂ (Regs.set · r ·) hregs hv, hrest⟩

theorem decSp (h : SameCore s s') : SameCore s.decSp s'.decSp := h.setReg _ (congrArg (· - 1) (h.reg_eq 7))

theorem incSp (h : SameCore s s') : SameCore s.incSp s'.incSp := h.setReg _ (congrArg (· + 1) (h.reg_eq 7))

theorem setPc (h : SameCore s s') {p p' : Nat} (hp : p = p') : SameCore (s.setPc p) (s'.setPc p') := by
  obtain ⟨hmem, hregs, -, hrest⟩ := h
  exact ⟨hmem, hregs, hp, hrest⟩

theorem advance (h : SameCore s s') (n : Nat) : SameCore (s.advance n) (s'.advance n) :=
  h.setPc (congrArg (· + n) h.pc_eq)

theorem setFl (h : SameCore s s') {fl fl' : Flags} (hE : flagE fl = flagE fl') :
    SameCore (s.setFl fl) (s'.setFl fl') := by
  obtain ⟨hmem, hregs, hpc, hstatus, -⟩ := h
  exact ⟨hmem, hregs, hpc, hstatus, hE⟩

theorem halt (h : SameCore s s') : SameCore s.halt s'.halt := by
  obtain ⟨hmem, hregs, hpc, -, hE⟩ := h
  exact ⟨hmem, hregs, hpc, rfl, hE⟩

theorem takeFault (h : SameCore s s') (f : CoreFault) : SameCore (takeFault s f) (takeFault s' f) := by
  obtain ⟨hmem, hregs, hpc, -, hE⟩ := h
  exact ⟨hmem, hregs, hpc, rfl, hE⟩

/-- The output is no part of what must agree. -/
theorem emit (h : SameCore s s') (v v' : Byte) : SameCore (s.emit v) (s'.emit v') := h

/-- Fetch and decode read memory and pc alone. -/
theorem fetchDecode_eq (h : SameCore s s') (om : OpcodeMap) : fetchDecode om s = fetchDecode om s' := by
  simp only [fetchDecode, fetch, memRead_congr h.mem_eq, h.pc_eq]

end SameCore

/-- The two states' results agree as the states did, and both appended `l` to their outputs. -/
def SameEffect (s s' t t' : State) (l : List Byte) : Prop :=
  SameCore t t' ∧ t.output = s.output ++ l ∧ t'.output = s'.output ++ l

/-- States that agree but for the output and make none in a step. -/
theorem SameCore.sameEffect_nil {s s' t t' : State} (h : SameCore t t') (ht : t.output = s.output)
    (ht' : t'.output = s'.output) : SameEffect s s' t t' [] :=
  ⟨h, by simp [ht], by simp [ht']⟩

/-- An instruction completes in two states that agree with the same effect: it reads neither the output nor G and L. -/
theorem Completes.exists_sameEffect {s s' t : State} {i : Instr} (hc : Completes s i t) (h : SameCore s s') :
    ∃ t' l, Completes s' i t' ∧ SameEffect s s' t t' l := by
  have hreg := h.reg_eq
  have htop := h.stackTop_eq
  cases hc with
  | hlt => exact ⟨_, _, .hlt, h.halt.sameEffect_nil rfl rfl⟩
  | ldi r imm => exact ⟨_, _, .ldi r imm, ((h.setReg r rfl).advance 3).sameEffect_nil rfl rfl⟩
  | prn r => exact ⟨_, _, .prn r, (h.emit _ _).advance 2, rfl, by simp [hreg]⟩
  | mul r q => exact ⟨_, _, .mul r q, ((h.setReg r (by rw [hreg, hreg])).advance 3).sameEffect_nil rfl rfl⟩
  | add r q => exact ⟨_, _, .add r q, ((h.setReg r (by rw [hreg, hreg])).advance 3).sameEffect_nil rfl rfl⟩
  | cmp r q => exact ⟨_, _, .cmp r q, ((h.setFl (by rw [hreg, hreg])).advance 3).sameEffect_nil rfl rfl⟩
  | push r =>
    exact ⟨_, _, .push r, ((h.decSp.setMem (by rw [h.mem_eq, h.decSp.stackTop_eq, h.decSp.reg_eq])).advance
      2).sameEffect_nil rfl rfl⟩
  | pop r =>
    exact ⟨_, _, .pop r, ((h.setReg r (by rw [h.mem_eq, htop])).incSp.advance 2).sameEffect_nil rfl rfl⟩
  | call r =>
    exact ⟨_, _, .call r, ((h.decSp.setMem (by rw [h.mem_eq, h.decSp.stackTop_eq, h.pc_eq])).setPc
      (by rw [h.decSp.reg_eq])).sameEffect_nil rfl rfl⟩
  | ret => exact ⟨_, _, .ret, (h.setPc (by rw [h.mem_eq, htop])).sameEffect_nil rfl rfl⟩
  | jmp r => exact ⟨_, _, .jmp r, (h.setPc (by rw [hreg])).sameEffect_nil rfl rfl⟩
  | jeq r => exact ⟨_, _, .jeq r, (h.setPc (by rw [h.flagE_eq, hreg, h.pc_eq])).sameEffect_nil rfl rfl⟩
  | jne r => exact ⟨_, _, .jne r, (h.setPc (by rw [h.flagE_eq, hreg, h.pc_eq])).sameEffect_nil rfl rfl⟩

/-! ## The statements of spec/10_state.md -/

/-- Settles O15: memory is filled with MEM_FILL, everything else is the reset state's or the argument. -/
theorem constructedStateForAnyParameters : Obligations.ConstructedStateForAnyParameters := by
  refine ⟨fun fl fill => ⟨fun r => ?_, construct_pc fl fill, construct_fl fl fill, construct_status fl fill,
    construct_output fl fill, ?_, fun x hx => ?_⟩, construct_default⟩
  · rw [construct_reg]
    fin_cases r <;> rfl
  · rw [construct_mem]
    exact Memory.wf_filled fill
  · rw [memRead_of_lt hx, construct_mem, Memory.get_filled, if_pos (show x < Config.memSize from hx)]

/-- Settles O32: ADD and MUL complete and store the byte of the exact sum and product. -/
theorem arithmeticWrapsWithoutTrap : Obligations.ArithmeticWrapsWithoutTrap := by
  rintro s r q _ _ hs rfl rfl
  exact ⟨⟨_, (Completes.add r q).exec, hs, by simp [toNat_sumByte]⟩,
    ⟨_, (Completes.mul r q).exec, hs, by simp [toNat_productByte]⟩⟩

/-- Settles O35: the operand check by its two outcomes, the write by the register file's law. -/
theorem registerFileContract : Obligations.RegisterFileContract := by
  refine ⟨fun a r => ?_, fun a => regOperand_of_gt, Regs.get_set⟩
  obtain ha | ha : a.toNat ≤ 7 ∨ 7 < a.toNat := by omega
  · simp [regOperand_of_le ha, Fin.ext_iff]
  · have hne : a.toNat ≠ r.val := by omega
    simp [regOperand_of_gt ha, hne]

/-- Settles O43: a fault keeps FL, and so does every instruction but CMP. -/
theorem onlyCmpWritesFlags : Obligations.OnlyCmpWritesFlags := by
  intro om s t h hfl
  obtain ⟨i, hi, hc⟩ | ⟨f, rfl, -⟩ := stepWith_outcome h
  · by_contra hno
    refine hfl (hc.fl_eq ?_)
    rintro a b rfl
    exact hno ⟨a, b, hi⟩
  · exact absurd rfl hfl

/-- Settles O44: a fault keeps the output, and an instruction keeps it or is a PRN. -/
theorem onlyPrnExtendsOutput : Obligations.OnlyPrnExtendsOutput := by
  intro om s t h
  obtain ⟨i, hi, hc⟩ | ⟨f, rfl, -⟩ := stepWith_outcome h
  · obtain hout | ⟨r, rfl, hout⟩ := hc.output_cases
    · exact .inl hout
    · exact .inr ⟨r, hi, hout⟩
  · exact .inl rfl

/-- Settles O46: every instruction but HLT keeps Running, and a fault leaves Faulted, which a decoded HLT never raises. -/
theorem onlyHltHalts : Obligations.OnlyHltHalts := by
  intro om s t h
  obtain ⟨hs, -⟩ := stepWith_cases h
  obtain ⟨i, hi, hc⟩ | ⟨f, rfl, hbad⟩ := stepWith_outcome h
  · rw [hc.status_eq, hs, hi]
    by_cases hhlt : i = .hlt <;> simp [hhlt]
  · have hno : fetchDecode om s ≠ .ok .hlt := fun hh => absurd (hbad _ hh) (by decide)
    simp [hno]

/-- Settles O47: fetch and decode, the handlers and the fault entry read and leave the agreeing parts alone. -/
theorem outputAndUnreadFlagsAreNotRead : Obligations.OutputAndUnreadFlagsAreNotRead := by
  intro om s s' t h hstep
  obtain ⟨hs, hcases⟩ := stepWith_cases hstep
  have hs' : s'.status = .running := h.status_eq ▸ hs
  obtain ⟨i, hi, he⟩ | ⟨f, hf, rfl⟩ := hcases
  · rw [h.fetchDecode_eq om] at hi
    rw [stepWith_of_ok hs' hi]
    obtain hc | ⟨v, hv, rfl⟩ := exec_cases he
    · obtain ⟨t', l, hc', heff⟩ := hc.exists_sameEffect h
      exact ⟨t', l, hc'.exec, heff⟩
    · exact ⟨_, _, exec_of_firstBadRegister s' hv, (h.takeFault _).sameEffect_nil rfl rfl⟩
  · rw [h.fetchDecode_eq om] at hf
    exact ⟨_, _, stepWith_of_error hs' hf, (h.takeFault f).sameEffect_nil rfl rfl⟩

/-- Settles O14: reset's memory is canonical, its pc 0, its flags clear and its status Running. -/
theorem resetMeetsInvariant : Obligations.ResetMeetsInvariant := by
  unfold Obligations.ResetMeetsInvariant State.inv
  rw [State.reset_mem_wf]
  rfl

end Sys2Proof.Machine

/-! ## Stores and fetches

PUSH and CALL store one byte at the decremented SP (R45), and a fetch reads whatever byte memory holds (R52). -/

namespace Sys2Proof.Machine

/-! ### The memory an instruction leaves -/

/-- The address PUSH and CALL store to is SP - 1 modulo 256 (R45, R143). -/
theorem State.stackTop_decSp (s : State) : s.decSp.stackTop = (s.reg 7 - 1).toNat := rfl

/-- After a store at the decremented SP, that address reads as stored and every other one as before. -/
theorem memRead_of_mem_eq_put_decSp {s t : State} {v : Byte} (ht : t.mem = s.mem.put s.decSp.stackTop v) (x : Nat) :
    memRead t x = if x = s.decSp.stackTop then .ok v else memRead s x := by
  rw [memRead_put s _ x v t ht]
  by_cases hx : x = s.decSp.stackTop
  · rw [if_pos ⟨hx, hx ▸ s.decSp.stackTop_lt⟩, if_pos hx]
  · rw [if_neg (fun ⟨h, _⟩ => hx h), if_neg hx]

/-- The address stored to reads as the byte stored. -/
theorem memRead_stored {s t : State} {v : Byte} (ht : t.mem = s.mem.put s.decSp.stackTop v) :
    memRead t s.decSp.stackTop = .ok v :=
  (memRead_of_mem_eq_put_decSp ht _).trans (if_pos rfl)

/-- Only PUSH and CALL write memory, and they write one byte at the decremented SP (R45). -/
theorem Completes.mem_cases {s t : State} {i : Instr} (h : Completes s i t) :
    t.mem = s.mem ∨ ∃ a v, (i = .push a ∨ i = .call a) ∧ t.mem = s.mem.put s.decSp.stackTop v := by
  cases h with
  | push r => exact .inr ⟨_, _, .inl rfl, rfl⟩
  | call r => exact .inr ⟨_, _, .inr rfl, rfl⟩
  | _ => exact .inl rfl

/-- CALL's stored byte is p + 2, with no wrap, at every pc a CALL can be fetched from (R151, log 14). -/
theorem toNat_returnByte {p : Nat} (h : p ≤ 253) : (BitVec.ofNat 8 (p + 2)).toNat = p + 2 := by
  rw [BitVec.toNat_ofNat]
  omega

/-! ### The step of the bytes fetched -/

/-- An opcode of an injective map decodes to the instruction of its mnemonic (R84). -/
theorem decodeWith_opcode {om : OpcodeMap} (h : Function.Injective om) (m : Mnemonic) (a b : Byte) :
    decodeWith om (om m) a b = .ok (instrOf m a b) := by
  simp only [decodeWith, lookupOpcode_opcode h]

namespace Fetches

variable {om : OpcodeMap} {s : State} {op a b : Byte}

/-- Three bytes are fetched from a pc of at most 253 alone (R81, R209). -/
theorem pc_le (h : Fetches s op a b) : s.pc ≤ 253 := by
  obtain ⟨-, -, -, hb⟩ := h
  by_contra hpc
  rw [memRead_of_ge (by omega)] at hb
  cases hb

theorem fetch_eq (h : Fetches s op a b) : fetch s = .ok ⟨op, a, b⟩ := by
  obtain ⟨-, hop, ha, hb⟩ := h
  simp [fetch, hop, ha, hb]

/-- The step runs what the fetched bytes decode to (R89). -/
theorem stepWith_eq (h : Fetches s op a b) {i : Instr} (hd : decodeWith om op a b = .ok i) :
    stepWith om s = exec i s := by
  have hi : fetchDecode om s = .ok i := by simp [fetchDecode, h.fetch_eq, hd]
  obtain ⟨hs, -⟩ := h
  exact stepWith_of_ok hs hi

/-- A fetched opcode runs as the instruction of its mnemonic (R62, R84). -/
theorem stepWith_opcode {m : Mnemonic} (h : Fetches s (om m) a b) (hom : Function.Injective om) :
    stepWith om s = exec (instrOf m a b) s :=
  h.stepWith_eq (decodeWith_opcode hom m a b)

end Fetches

/-- The byte an address holds is the one that later fetches get from it, while it stands there (R52, R208). -/
theorem laterFetchesSee_of_memRead {om : OpcodeMap} {t : State} {x : Nat} {v : Byte} (h : memRead t x = .ok v) :
    LaterFetchesSee om t x v := by
  refine ⟨h, fun u op a b hu hf => ?_⟩
  have hux : memRead u x = .ok v := hu.trans h
  have hrun : ∀ i, decodeWith om op a b = .ok i → stepWith om u = exec i u := fun _ => hf.stepWith_eq
  obtain ⟨-, hop, ha, hb⟩ := hf
  refine ⟨?_, ?_, ?_⟩
  · rintro rfl
    obtain rfl : op = v := Except.ok.inj (hop.symm.trans hux)
    exact ⟨rfl, hrun⟩
  · rintro rfl
    exact Except.ok.inj (ha.symm.trans hux)
  · rintro rfl
    exact Except.ok.inj (hb.symm.trans hux)

/-! ## The statements of spec/20_memory.md -/

/-- Settles O10: a well-formed instruction completes, and what completes keeps the status unless it is HLT. -/
theorem wellFormedInstructionsComplete : Obligations.WellFormedInstructionsComplete := by
  intro i s hs hwf
  obtain ⟨t, ht⟩ := exists_completes_of_wellFormed s hwf
  exact ⟨t, ht.exec, hs ▸ ht.status_eq⟩

/-- Settles O34: an access is in or out of memory by its address, and a write inside it replaces one byte. -/
theorem memoryContract : Obligations.MemoryContract := by
  refine ⟨fun s x hx => memRead_of_ge hx, fun s x v hx => memWrite_of_ge v hx,
    fun s x hx => ⟨_, memRead_of_lt (Nat.lt_succ_of_le hx)⟩, fun s x v hx => ?_⟩
  have hlt : x < 256 := Nat.lt_succ_of_le hx
  have hread := fun y => memRead_put s x y v (s.setMem (s.mem.put x v)) rfl
  refine ⟨_, memWrite_of_lt v hlt, ?_, fun y hy => ?_, rfl, Memory.wf_put s.mem x v hlt⟩
  · rw [hread, if_pos ⟨rfl, hlt⟩]
  · rw [hread, if_neg (fun ⟨h, _⟩ => hy h)]

/-- Settles O36: the address stored to holds the byte stored, and the step was decoded before its store. -/
theorem fetchSeesEarlierStores : Obligations.FetchSeesEarlierStores := by
  refine ⟨fun om s r _ => ?_, fun om s r _ hpc => ?_, fun om s r b hom _ => ⟨fun hf => ?_, fun hf => ?_⟩⟩
  · rw [← State.reg_decSp]
    exact ⟨_, (Completes.push r).exec, laterFetchesSee_of_memRead (memRead_stored rfl)⟩
  · exact ⟨_, _, toNat_returnByte hpc, (Completes.call r).exec, laterFetchesSee_of_memRead (memRead_stored rfl)⟩
  · rw [hf.stepWith_opcode hom, ← State.reg_decSp]
    exact ⟨_, (Completes.push r).exec, rfl, s.reg_decSp 7, memRead_stored rfl⟩
  · rw [hf.stepWith_opcode hom, ← State.reg_decSp]
    exact ⟨_, _, toNat_returnByte hf.pc_le, (Completes.call r).exec, rfl, s.reg_decSp 7, memRead_stored rfl⟩

/-- Settles O45: a fault keeps memory, and so does every instruction but PUSH and CALL, which change one byte. -/
theorem onlyPushAndCallStore : Obligations.OnlyPushAndCallStore := by
  intro om s t x h hx
  obtain ⟨i, hi, hc⟩ | ⟨f, rfl, -⟩ := stepWith_outcome h
  · obtain hmem | ⟨a, v, hinstr, hmem⟩ := hc.mem_cases
    · exact absurd (memRead_congr hmem x) hx
    · refine ⟨⟨a, by simpa only [hi, Except.ok.injEq] using hinstr⟩, ?_⟩
      rw [← State.stackTop_decSp]
      by_contra hne
      exact hx ((memRead_of_mem_eq_put_decSp hmem x).trans (if_neg hne))
  · exact absurd rfl hx

end Sys2Proof.Machine

/-! ## Encoding and decoding

An instruction of a mnemonic is encoded as the opcode and the operand bytes that its format takes (R60, R61); the decoder puts the
same bytes back together and ignores the others (R66). -/

namespace Sys2Proof.Machine

/-! ### An instruction and its bytes -/

/-- A format has 1 to 3 bytes (R61). -/
theorem formatLength_bounds (f : Format) : 1 ≤ f.length ∧ f.length ≤ 3 := by
  cases f <;> decide

/-- Every instruction is 1 to 3 bytes long (R60, R61). -/
theorem length_bounds (i : Instr) : 1 ≤ i.length ∧ i.length ≤ 3 := formatLength_bounds i.format

/-- An instruction's length is its opcode's, whatever the operand bytes (R61, R68). -/
theorem length_instrOf (m : Mnemonic) (a b : Byte) : (instrOf m a b).length = m.format.length := by
  rw [Instr.length, Instr.format, instrOf_mnemonic]

/-- The encoding is the opcode and two operand bytes, cut at the format's length (R60, R61). -/
theorem encodeWith_instrOf (om : OpcodeMap) (m : Mnemonic) (a b : Byte) :
    encodeWith om (instrOf m a b) = [om m, a, b].take m.format.length := by
  cases m <;> rfl

/-- The bytes of an instruction and two more start with its opcode and two bytes that make it again (R61, R66). -/
theorem encodeWith_append_pair (om : OpcodeMap) (i : Instr) (x y : Byte) :
    ∃ a b rest, encodeWith om i ++ [x, y] = om i.mnemonic :: a :: b :: rest ∧ instrOf i.mnemonic a b = i := by
  cases i with
  | hlt | ret => exact ⟨x, y, [], rfl, rfl⟩
  | prn a | push a | pop a | call a | jmp a | jeq a | jne a => exact ⟨a, x, [y], rfl, rfl⟩
  | ldi a b | mul a b | add a b | cmp a b => exact ⟨a, b, [x, y], rfl, rfl⟩

/-- An F1 instruction takes no operand byte (R61, R66). -/
theorem instrOf_eq_of_f1 {m : Mnemonic} (h : m.format = .f1) (a b a' b' : Byte) : instrOf m a b = instrOf m a' b' := by
  cases m with
  | hlt | ret => rfl
  | _ => cases h

/-- An F2R instruction takes the first operand byte alone (R61, R66). -/
theorem instrOf_eq_of_f2r {m : Mnemonic} (h : m.format = .f2r) (a b b' : Byte) : instrOf m a b = instrOf m a b' := by
  cases m with
  | prn | push | pop | call | jmp | jeq | jne => rfl
  | _ => cases h

/-! ### What is decoded -/

/-- The decoder answers the instruction of the mnemonic that it finds by the opcode alone (R84). -/
theorem decodeWith_eq_ok_iff {om : OpcodeMap} {op a b : Byte} {i : Instr} :
    decodeWith om op a b = .ok i ↔ ∃ m, lookupOpcode om op = some m ∧ instrOf m a b = i := by
  unfold decodeWith
  cases lookupOpcode om op <;> simp

/-- The decoder gives an instruction back from its encoding and any two bytes after it (R60, R61, R66). -/
theorem decodeBytesWith_encodeWith {om : OpcodeMap} (hom : Function.Injective om) (i : Instr) (x y : Byte) :
    decodeBytesWith om (encodeWith om i ++ [x, y]) = .ok i := by
  obtain ⟨a, b, rest, hbytes, hi⟩ := encodeWith_append_pair om i x y
  rw [hbytes, decodeBytesWith, decodeWith_opcode hom, hi]

/-- An instruction fetched at pc is encoded in memory from pc on, at addresses inside it (R60, R81). -/
theorem encodeWith_of_fetchDecode {om : OpcodeMap} {s : State} {i : Instr} (h : fetchDecode om s = .ok i) :
    s.pc ≤ 253 ∧ encodeWith om i = (List.range i.length).map (fun k => s.mem.get (s.pc + k)) := by
  obtain ⟨hpc, m, hm, hd⟩ | ⟨-, hd⟩ | ⟨-, -, hd⟩ := fetchDecode_cases om s <;> rw [hd] at h
  · obtain rfl := Except.ok.inj h
    obtain ⟨-, hle⟩ := formatLength_bounds m.format
    refine ⟨hpc, ?_⟩
    calc encodeWith om (instrOf m (s.mem.get (s.pc + 1)) (s.mem.get (s.pc + 2)))
      _ = [s.mem.get s.pc, s.mem.get (s.pc + 1), s.mem.get (s.pc + 2)].take m.format.length := by
        rw [encodeWith_instrOf, hm]
      _ = ((List.range 3).map (fun k => s.mem.get (s.pc + k))).take m.format.length := rfl
      _ = _ := by rw [← List.map_take, List.take_range, Nat.min_eq_left hle, length_instrOf]
  · cases h
  · cases h

/-- A fetched byte that is no opcode of the map raises IllegalInstruction with the pc and the byte (R67, R175). -/
theorem Fetches.fetchDecode_of_not_opcode {om : OpcodeMap} {s : State} {op a b : Byte} (h : Fetches s op a b)
    (hop : ∀ m, om m ≠ op) : fetchDecode om s = .error (.illegalInstruction s.pc op) := by
  obtain ⟨m, hm, -⟩ | ⟨-, hd⟩ := decodeWith_cases om op a b
  · exact absurd hm (hop m)
  · simp [fetchDecode, h.fetch_eq, hd, decodeFault]

/-! ## The statements of spec/30_encoding.md -/

/-- Settles O1: the encoding's first three bytes are the opcode and two bytes that make the instruction again. -/
theorem decodeEncodeRoundTrip : Obligations.DecodeEncodeRoundTrip :=
  ⟨fun _ hom => decodeBytesWith_encodeWith hom, decodeBytesWith_encodeWith Config.opcodeMap_injective⟩

/-- Settles O2: what is decoded is made of its mnemonic's opcode and the operand bytes, and its length is its mnemonic's. -/
theorem decodedBytesReencode : Obligations.DecodedBytesReencode := by
  refine ⟨fun om op a b i hi => ?_, fun om s i _ hi => ?_⟩
  · obtain ⟨m, hm, rfl⟩ := decodeWith_eq_ok_iff.1 hi
    obtain ⟨hpos, hle⟩ := length_bounds (instrOf m a b)
    refine ⟨?_, hpos, hle, fun a' b' i' hi' => ?_⟩
    · rw [encodeWith_instrOf, length_instrOf, lookupOpcode_some hm]
    · obtain ⟨m', hm', rfl⟩ := decodeWith_eq_ok_iff.1 hi'
      obtain rfl : m = m' := Option.some.inj (hm.symm.trans hm')
      rw [length_instrOf, length_instrOf]
  · obtain ⟨hpc, henc⟩ := encodeWith_of_fetchDecode hi
    obtain ⟨-, hle⟩ := length_bounds i
    refine ⟨by simp [henc], fun k v hk => ?_⟩
    obtain ⟨hki, rfl⟩ : k < i.length ∧ s.mem.get (s.pc + k) = v := by
      simpa [henc, List.getElem?_eq_some_iff] using hk
    exact memRead_of_lt (by omega)

/-- Settles O4: the opcode decodes to its mnemonic's instruction, which takes no byte that its format does not use. -/
theorem unusedOperandBytesAreIgnored : Obligations.UnusedOperandBytesAreIgnored := by
  intro om m a b a' b' hom
  simp only [decodeWith_opcode hom, Except.ok.injEq]
  exact ⟨fun h => instrOf_eq_of_f1 h a b a' b', fun h => instrOf_eq_of_f2r h a b b'⟩

/-- Settles O6: the decoder rejects the opcode, and the step takes the fault, which changes the status alone. -/
theorem opcodesOutsideTheMapFault : Obligations.OpcodesOutsideTheMapFault := by
  intro om s op a b h hop
  have hd := h.fetchDecode_of_not_opcode hop
  obtain ⟨hs, -⟩ := h
  exact stepWith_of_error hs hd

end Sys2Proof.Machine

/-! ## Steps, their faults and the invariant

A step completes the instruction it decoded, or it takes one of three faults, each with its cause (R80, R85, R175); a completion
and a fault each keep the invariant. -/

namespace Sys2Proof.Machine

/-! ### What makes a step fault -/

/-- The first field found that names no register is above 7 (R173). -/
theorem lt_toNat_of_find?_eq_some {l : List Byte} {v : Byte} (h : l.find? (fun a => !namesRegister a) = some v) :
    7 < v.toNat :=
  not_namesRegister_iff.1 (List.find?_some (p := fun a => !namesRegister a) h)

theorem lt_toNat_of_firstBadRegister {i : Instr} {v : Byte} (h : i.firstBadRegister = some v) : 7 < v.toNat :=
  lt_toNat_of_find?_eq_some h

/-- The faults a step can raise, each with its cause: the fetch leaves memory (R81, R87), a register field of the decoded
instruction names no register (R85), the opcode is not in the map (R175). -/
inductive StepFault (om : OpcodeMap) (s : State) : CoreFault → Prop
  | outOfBounds (hpc : 254 ≤ s.pc) : StepFault om s (.outOfBounds (max s.pc 256))
  | invalidRegister {i : Instr} {v : Byte} (hi : fetchDecode om s = .ok i) (hv : i.firstBadRegister = some v) :
      StepFault om s (.invalidRegister v)
  | illegalInstruction (hpc : s.pc ≤ 253) (hop : ∀ m, om m ≠ s.mem.get s.pc) :
      StepFault om s (.illegalInstruction s.pc (s.mem.get s.pc))

/-- An error of fetch and decode is one of the faults with a cause. -/
theorem StepFault.of_fetchDecode {om : OpcodeMap} {s : State} {f : CoreFault} (h : fetchDecode om s = .error f) :
    StepFault om s f := by
  obtain ⟨-, m, -, hd⟩ | ⟨hpc, hd⟩ | ⟨hpc, hop, hd⟩ := fetchDecode_cases om s <;> rw [hd] at h <;> cases h
  · exact .outOfBounds hpc
  · exact .illegalInstruction hpc hop

/-- What a step can do: complete the instruction decoded, or take a fault that has a cause. -/
theorem stepWith_completes_or_faults {om : OpcodeMap} {s t : State} (h : stepWith om s = .next t) :
    (∃ i, fetchDecode om s = .ok i ∧ Completes s i t) ∨ ∃ f, StepFault om s f ∧ t = takeFault s f := by
  obtain ⟨-, ⟨i, hi, he⟩ | ⟨f, hf, ht⟩⟩ := stepWith_cases h
  · obtain hc | ⟨v, hv, ht⟩ := exec_cases he
    · exact .inl ⟨i, hi, hc⟩
    · exact .inr ⟨_, .invalidRegister hi hv, ht⟩
  · exact .inr ⟨f, .of_fetchDecode hf, ht⟩

/-! ### When there is a step -/

/-- Every instruction has a next state from every state, a faulted one where a register field is bad (R85, R176). -/
theorem exists_exec_eq_next (i : Instr) (s : State) : ∃ t, exec i s = .next t := by
  cases hb : i.firstBadRegister with
  | none =>
    obtain ⟨t, ht⟩ := exists_completes_of_wellFormed s (firstBadRegister_eq_none_iff.1 hb)
    exact ⟨t, ht.exec⟩
  | some v => exact ⟨_, exec_of_firstBadRegister s hb⟩

/-- A running core has a step, and no other core has one (R80, R90). -/
theorem exists_stepWith_eq_next_iff {om : OpcodeMap} {s : State} :
    (∃ t, stepWith om s = .next t) ↔ s.status = .running := by
  refine ⟨fun ⟨t, ht⟩ => ?_, fun hs => ?_⟩
  · obtain ⟨hs, -⟩ := stepWith_cases ht
    exact hs
  · cases hf : fetchDecode om s with
    | ok i => rw [stepWith_of_ok hs hf]; exact exists_exec_eq_next i s
    | error f => exact ⟨_, stepWith_of_error hs hf⟩

theorem stepWith_of_halted {om : OpcodeMap} {s : State} (hs : s.status = .halted) :
    stepWith om s = .fault .noStepHalted := by
  simp [stepWith, hs]

theorem stepWith_of_faulted {om : OpcodeMap} {s : State} {f : CoreFault} (hs : s.status = .faulted f) :
    stepWith om s = .fault .noStepFaulted := by
  simp [stepWith, hs]

/-- The run has ended when the status is not Running (R91). -/
theorem State.ended_iff {s : State} : s.ended = true ↔ s.status ≠ .running := by
  simp [State.ended, powerState]

/-! ### What a completion leaves in the pc, the memory, the flags and the status -/

/-- A fetched instruction starts at 253 or below, advances by at most 3 and jumps to a byte, so its pc stays at most 256 (R87). -/
theorem Completes.pc_le {s t : State} {i : Instr} (h : Completes s i t) (hpc : s.pc ≤ 253) : t.pc ≤ 256 := by
  have hbyte : ∀ v : Byte, v.toNat ≤ 256 := fun v => v.isLt.le
  have hnext : ∀ n ≤ 3, s.pc + n ≤ 256 := fun n hn => Nat.add_le_add hpc hn
  cases h with
  | hlt => exact hnext 0 (by decide)
  | ldi | mul | add | cmp => exact hnext 3 (by decide)
  | prn | push | pop => exact hnext 2 (by decide)
  | call | ret | jmp => exact hbyte _
  | jeq =>
    rw [State.setPc_pc]
    split
    exacts [hbyte _, hnext 2 (by decide)]
  | jne =>
    rw [State.setPc_pc]
    split
    exacts [hnext 2 (by decide), hbyte _]

/-- PUSH and CALL write inside memory, the others write none, so the canonical form is kept (R41, R46). -/
theorem Completes.mem_wf {s t : State} {i : Instr} (h : Completes s i t) (hwf : s.mem.wf = true) : t.mem.wf = true := by
  obtain hmem | ⟨-, v, -, hmem⟩ := h.mem_cases
  · rwa [hmem]
  · rw [hmem]
    exact Memory.wf_put _ _ v s.decSp.stackTop_lt hwf

theorem atMostOneFlag_compareFlags (x y : Byte) : atMostOneFlag (compareFlags x y) = true := by
  obtain ⟨-, h⟩ | ⟨-, h⟩ | ⟨-, h⟩ := compareFlags_cases x y <;> rw [h] <;> rfl

/-- CMP sets one flag and the others write none (R26). -/
theorem Completes.atMostOneFlag {s t : State} {i : Instr} (h : Completes s i t) (hfl : atMostOneFlag s.fl = true) :
    atMostOneFlag t.fl = true := by
  cases h with
  | cmp r q => exact atMostOneFlag_compareFlags _ _
  | _ => exact hfl

/-- No completion ends in a fault (R46, R121, R176). -/
theorem Completes.status_ne_faulted {s t : State} {i : Instr} (h : Completes s i t) (hs : s.status = .running)
    (f : CoreFault) : t.status ≠ .faulted f := by
  rw [h.status_eq, hs]
  split <;> exact nofun

/-- A completion leaves no fault record to judge. -/
theorem Completes.statusOk {s t : State} {i : Instr} (h : Completes s i t) (hs : s.status = .running) (p : Nat) :
    statusOk p t.status = true := by
  rw [h.status_eq, hs]
  split <;> rfl

/-! ### The invariant -/

theorem State.inv_iff {s : State} :
    s.inv = true ↔ s.mem.wf = true ∧ s.pc ≤ 256 ∧ atMostOneFlag s.fl = true ∧ statusOk s.pc s.status = true := by
  simp [State.inv, and_assoc]

/-- The opcodes are the values of the default map (R67). -/
theorem isOpcode_iff {op : Byte} : isOpcode op = true ↔ ∃ m, Config.opcodeMap m = op := by
  simp [isOpcode, Mnemonic.mem_all]

/-- From a pc of at most 256, the faults of a step under the default map are the ones R170 describes. -/
theorem StepFault.faultRecordOk {s : State} {f : CoreFault} (h : StepFault Config.opcodeMap s f) (hpc : s.pc ≤ 256) :
    faultRecordOk s.pc f = true := by
  cases h with
  | outOfBounds => simp [Machine.faultRecordOk, Nat.max_eq_right hpc]
  | invalidRegister _ hv => exact decide_eq_true (lt_toNat_of_firstBadRegister hv)
  | illegalInstruction _ hop =>
    have hno : isOpcode (s.mem.get s.pc) = false := by
      rw [← Bool.not_eq_true, isOpcode_iff]
      exact fun ⟨m, hm⟩ => hop m hm
    simp [Machine.faultRecordOk, hno]

/-- An instruction that is fetched and completes keeps the invariant. -/
theorem Completes.inv {s t : State} {i : Instr} (h : Completes s i t) (hs : s.status = .running) (hpc : s.pc ≤ 253)
    (hinv : s.inv = true) : t.inv = true := by
  obtain ⟨hmem, -, hfl, -⟩ := State.inv_iff.1 hinv
  exact State.inv_iff.2 ⟨h.mem_wf hmem, h.pc_le hpc, h.atMostOneFlag hfl, h.statusOk hs t.pc⟩

/-- A fault that a step raises keeps the invariant: only the status changes (R176), to a record R170 describes. -/
theorem StepFault.inv_takeFault {s : State} {f : CoreFault} (h : StepFault Config.opcodeMap s f) (hinv : s.inv = true) :
    (takeFault s f).inv = true := by
  obtain ⟨hmem, hpc, hfl, -⟩ := State.inv_iff.1 hinv
  exact State.inv_iff.2 ⟨hmem, hpc, hfl, h.faultRecordOk hpc⟩

/-! ### The control logic's table -/

/-- The state has the pc and the status that the table gives, and its SP where the table writes it (R92). -/
def MatchesControl (t : State) (c : Control) : Prop :=
  t.pc = c.pcD ∧ t.status = c.statusD ∧ ∀ v, c.spD = some v → t.reg 7 = v

/-- Where the table does not write SP, pc and status are all it gives. -/
theorem matchesControl_of_no_sp {t : State} {p : Nat} {st : Status} (hpc : t.pc = p) (hst : t.status = st) :
    MatchesControl t ⟨p, none, st⟩ :=
  ⟨hpc, hst, nofun⟩

theorem matchesControl_of_sp {t : State} {p : Nat} {v : Byte} {st : Status} (hpc : t.pc = p) (hst : t.status = st)
    (hsp : t.reg 7 = v) : MatchesControl t ⟨p, some v, st⟩ :=
  ⟨hpc, hst, fun _ hw => hsp.trans (Option.some.inj hw)⟩

/-- CALL's target is its register as it reads after the SP write (R86, R151). -/
theorem callTarget_eq_reg_decSp (r : RegIndex) (s : State) : callTarget r s = s.decSp.reg r := (s.reg_decSp r).symm

/-- SP after a POP is one above R7 as it reads after the write of the popped byte (R142). -/
theorem popSp_eq_reg_incSp (r : RegIndex) (v : Byte) (s : State) : popSp r v s = (s.setReg r v).incSp.reg 7 := by
  by_cases hr : r = 7
  · simp [popSp, hr, Config.spIndex]
  · simp [popSp, hr, Ne.symm hr, Config.spIndex, State.sp_eq]

/-- A handler that completes in a running state leaves what the table gives for its instruction (R86, R92). -/
theorem Completes.exists_matchesControl {s t : State} {i : Instr} (h : Completes s i t) (hs : s.status = .running) :
    ∃ c, controlLogic i s = .ok c ∧ MatchesControl t c := by
  cases h with
  | hlt => exact ⟨_, rfl, matchesControl_of_no_sp rfl rfl⟩
  | ldi r | prn r | jmp r | jeq r | jne r =>
    exact ⟨_, by simp [controlLogic], matchesControl_of_no_sp rfl hs⟩
  | mul r q | add r q | cmp r q => exact ⟨_, by simp [controlLogic], matchesControl_of_no_sp rfl hs⟩
  | ret => exact ⟨_, by simp [controlLogic, memRead_stackTop], matchesControl_of_no_sp rfl hs⟩
  | push r => exact ⟨_, by simp [controlLogic, State.sp_eq], matchesControl_of_sp rfl hs (s.reg_decSp 7)⟩
  | pop r =>
    exact ⟨_, by simp [controlLogic, memRead_stackTop], matchesControl_of_sp rfl hs (popSp_eq_reg_incSp r _ s).symm⟩
  | call r =>
    exact ⟨_, by simp [controlLogic, State.sp_eq],
      matchesControl_of_sp (congrArg BitVec.toNat (callTarget_eq_reg_decSp r s).symm) hs (s.reg_decSp 7)⟩

/-- A computation that starts with the check of one register field raises for a bad one (R85). -/
theorem regOperand_bind_of_bad {α : Type} {a v : Byte} (k : RegIndex → Checked α)
    (h : [a].find? (fun a => !namesRegister a) = some v) : (regOperand a >>= k) = .error (.invalidRegister v) := by
  obtain rfl : v = a := List.mem_singleton.1 (List.mem_of_find?_eq_some h)
  rw [regOperand_of_gt (lt_toNat_of_find?_eq_some h), Checked.error_bind]

/-- A computation that starts with the checks of two register fields raises for the first bad one, a before b (R85). -/
theorem regOperand_bind₂_of_bad {α : Type} {a b v : Byte} (k : RegIndex → RegIndex → Checked α)
    (h : [a, b].find? (fun a => !namesRegister a) = some v) :
    (regOperand a >>= fun r => regOperand b >>= k r) = .error (.invalidRegister v) := by
  obtain ⟨r, rfl, hr⟩ | ⟨ha, hr⟩ := regOperand_cases a
  · rw [hr, Checked.ok_bind]
    exact regOperand_bind_of_bad (k r) (by simpa [namesRegister_iff.2 ⟨r, rfl⟩] using h)
  · obtain rfl : a = v := by simpa [not_namesRegister_iff.2 ha] using h
    rw [hr, Checked.error_bind]

/-- The table raises for the first bad register field (R85). -/
theorem controlLogic_of_firstBadRegister {i : Instr} {v : Byte} (s : State) (h : i.firstBadRegister = some v) :
    controlLogic i s = .error (.invalidRegister v) := by
  cases i with
  | hlt | ret => cases h
  | ldi a | prn a | push a | pop a | call a | jmp a | jeq a | jne a => exact regOperand_bind_of_bad _ h
  | mul a b | add a b | cmp a b => exact regOperand_bind₂_of_bad _ h

/-! ## The statements of spec/40_fetch_dispatch.md -/

/-- Settles O13: a step completes an instruction fetched at 253 or below or takes a fault that has a cause, and each keeps the
invariant. -/
theorem stepKeepsInvariant : Obligations.StepKeepsInvariant := by
  intro s t hinv h
  obtain ⟨hs, -⟩ := stepWith_cases h
  obtain ⟨i, hi, hc⟩ | ⟨f, hf, rfl⟩ := stepWith_completes_or_faults h
  · obtain ⟨hpc, -⟩ := encodeWith_of_fetchDecode hi
    exact hc.inv hs hpc hinv
  · exact hf.inv_takeFault hinv

/-- Settles O7: the check of the register fields opens every handler, and the step adds nothing around the handler. -/
theorem firstBadRegisterFaults : Obligations.FirstBadRegisterFaults :=
  ⟨fun _ s _ _ hv => ⟨lt_toNat_of_firstBadRegister hv, exec_of_firstBadRegister s hv⟩,
    fun _ s _ _ _ _ _ hf hd hv => (hf.stepWith_eq hd).trans (exec_of_firstBadRegister s hv),
    fun _ => firstBadRegister_eq_none_iff⟩

/-- Settles O12: a running core has a step, and the run has ended exactly when the status is another. -/
theorem stepExistsExactlyWhileRunning : Obligations.StepExistsExactlyWhileRunning := by
  intro om s
  have hnone : s.status ≠ .running ↔ ∀ t, stepWith om s ≠ .next t :=
    (not_congr exists_stepWith_eq_next_iff).symm.trans not_exists
  exact ⟨exists_stepWith_eq_next_iff, State.ended_iff.trans hnone, stepWith_of_halted, fun f => stepWith_of_faulted⟩

/-- Settles O16: what completes was fetched at 253 or below and is no fault; a fault keeps the pc, and OutOfBounds names the first
address above memory. -/
theorem reachableFetchFaultsNameAddress256 : Obligations.ReachableFetchFaultsNameAddress256 := by
  intro om s t hpc h
  obtain ⟨hs, -⟩ := stepWith_cases h
  obtain ⟨i, hi, hc⟩ | ⟨f, hf, rfl⟩ := stepWith_completes_or_faults h
  · obtain ⟨hfetch, -⟩ := encodeWith_of_fetchDecode hi
    exact ⟨hc.pc_le hfetch, fun n hn => absurd hn (hc.status_ne_faulted hs _)⟩
  · refine ⟨hpc, fun n hn => ?_⟩
    obtain rfl : f = .outOfBounds n := Status.faulted.inj hn
    cases hf with
    | outOfBounds hlow => exact ⟨Nat.max_eq_right hpc, hlow⟩

/-- Settles O37: each opcode runs as its instruction at the pc it was fetched from. -/
theorem returnAddressAndFallThrough : Obligations.ReturnAddressAndFallThrough := by
  refine fun om s r b hom => ⟨fun hf => ?_, fun hf hE => ?_, fun hf hE => ?_⟩ <;> rw [hf.stepWith_opcode hom]
  · exact ⟨_, _, (Completes.call r).exec, memRead_stored rfl, toNat_returnByte hf.pc_le⟩
  · exact ⟨_, (Completes.jeq r).exec, by simp [hE]⟩
  · exact ⟨_, (Completes.jne r).exec, by simp [hE]⟩

/-- Settles O48: a well-formed instruction completes with the table's outputs; for a bad register field both raise. -/
theorem controlLogicAgreesWithHandlers : Obligations.ControlLogicAgreesWithHandlers := by
  intro i s hs
  cases hb : i.firstBadRegister with
  | none =>
    obtain ⟨t, ht⟩ := exists_completes_of_wellFormed s (firstBadRegister_eq_none_iff.1 hb)
    obtain ⟨c, hc, hmatch⟩ := ht.exists_matchesControl hs
    refine ⟨fun c' hc' => ?_, fun f hf => (nomatch hc.symm.trans hf)⟩
    obtain rfl : c = c' := Except.ok.inj (hc.symm.trans hc')
    exact ⟨t, ht.exec, hmatch⟩
  | some v =>
    have hraise := controlLogic_of_firstBadRegister s hb
    refine ⟨fun c hc => (nomatch hraise.symm.trans hc), fun f hf => ?_⟩
    obtain rfl : .invalidRegister v = f := Except.error.inj (hraise.symm.trans hf)
    exact exec_of_firstBadRegister s hb

/-- Settles O5: fetch and decode give the instruction, and the step is exec of it. -/
theorem stepRunsTheDecodedInstruction : Obligations.StepRunsTheDecodedInstruction :=
  fun _ _ _ _ _ _ hf hd _ => hf.stepWith_eq hd

end Sys2Proof.Machine

/-! ## What the statements about single instructions share

The opcode of a mnemonic runs as its instruction, and a core that does not run has no step. -/

namespace Sys2Proof.Machine

/-- The bytes of every mnemonic's instruction run as that instruction (R62, R84). -/
theorem opcodeRuns_instrOf (m : Mnemonic) : OpcodeRuns m (instrOf m) :=
  fun _ hom _ _ _ hf => hf.stepWith_opcode hom

/-- A core whose status is not Running has no step (R90). -/
theorem stepWith_ne_next_of_not_running {s : State} (hs : s.status ≠ .running) (om : OpcodeMap) (t : State) :
    stepWith om s ≠ .next t :=
  fun ht => hs (exists_stepWith_eq_next_iff.1 ⟨t, ht⟩)

/-! ## The statement of spec/41_halt.md -/

/-- Settles O18: HLT completes in the halted state, which differs in the status alone and from which there is no step. -/
theorem hltHalts : Obligations.HltHalts := by
  refine ⟨opcodeRuns_instrOf .hlt, fun s _ => ⟨s.halt, Completes.hlt.exec, s.halt_status, s.halt_pc, s.reg_halt,
    s.halt_fl, s.halt_output, memRead_congr s.halt_mem, ?_⟩⟩
  have hstopped : s.halt.status ≠ .running := by simp
  exact stepWith_ne_next_of_not_running hstopped

end Sys2Proof.Machine

/-! ## The statements of spec/42_load_output.md

`Completes` names the next state; the laws of the operations that make it give what it holds. -/

namespace Sys2Proof.Machine

/-- Settles O19: LDI completes in the state that writes the immediate to its register, R7 like the others, and moves the pc past
its three bytes. -/
theorem ldiLoadsTheImmediate : Obligations.LdiLoadsTheImmediate := by
  refine ⟨opcodeRuns_instrOf .ldi, fun s r imm hs => ⟨_, (Completes.ldi r imm).exec, fun q => ?_, State.advance_pc _ 3,
    s.setReg_fl r imm, hs, s.setReg_output r imm, memRead_congr (s.setReg_mem r imm)⟩⟩
  rw [State.reg_advance, State.reg_setReg]

/-- Settles O20: PRN completes in the state that appends its register's byte to the output and moves the pc past its two bytes. -/
theorem prnAppendsTheRegister : Obligations.PrnAppendsTheRegister := by
  refine ⟨opcodeRuns_instrOf .prn, fun s r hs => ⟨_, (Completes.prn r).exec, ?_, State.advance_pc _ 2,
    s.reg_emit (s.reg r), s.emit_fl (s.reg r), hs, memRead_congr (s.emit_mem (s.reg r))⟩⟩
  rw [State.advance_output, State.emit_output]

end Sys2Proof.Machine

/-! ## The statements of spec/43_arithmetic.md

ADD and CMP write back the ALU's result of their tag, MUL its own product; each moves the pc past its three bytes. -/

namespace Sys2Proof.Machine

/-! ### A register written -/

theorem State.reg_setReg_self (s : State) (r : RegIndex) (v : Byte) : (s.setReg r v).reg r = v :=
  (s.reg_setReg r r v).trans (if_pos rfl)

theorem State.reg_setReg_of_ne (s : State) {r k : RegIndex} (v : Byte) (h : k ≠ r) : (s.setReg r v).reg k = s.reg k :=
  (s.reg_setReg r k v).trans (if_neg h)

/-- An instruction of three bytes whose result goes to one register keeps every other register, FL, the output and the memory
(R122, R123). -/
theorem Completes.exists_next_of_setReg {s : State} {i : Instr} {r : RegIndex} {v : Byte} {n : Nat}
    (h : Completes s i ((s.setReg r v).advance 3)) (hs : s.status = .running) (hv : v.toNat = n) :
    ∃ t, Machine.exec i s = .next t ∧ (t.reg r).toNat = n ∧ (∀ k, k ≠ r → t.reg k = s.reg k) ∧ t.pc = s.pc + 3 ∧
      t.fl = s.fl ∧ t.status = .running ∧ t.output = s.output ∧ ∀ x, memRead t x = memRead s x := by
  refine ⟨_, h.exec, ?_, fun k => s.reg_setReg_of_ne v, State.advance_pc _ 3, s.setReg_fl r v, hs, s.setReg_output r v,
    memRead_congr (s.setReg_mem r v)⟩
  rw [State.reg_advance, State.reg_setReg_self, hv]

/-! ### The comparison's flags -/

theorem flagE_compareFlags (x y : Byte) : flagE (compareFlags x y) = decide (x.toNat = y.toNat) := by
  obtain ⟨hxy, h⟩ | ⟨hxy, h⟩ | ⟨hxy, h⟩ := compareFlags_cases x y <;> rw [h]
  · rw [decide_eq_true hxy]; rfl
  · rw [decide_eq_false hxy.ne']; rfl
  · rw [decide_eq_false hxy.ne]; rfl

theorem flagG_compareFlags (x y : Byte) : flagG (compareFlags x y) = decide (y.toNat < x.toNat) := by
  obtain ⟨hxy, h⟩ | ⟨hxy, h⟩ | ⟨hxy, h⟩ := compareFlags_cases x y <;> rw [h]
  · rw [decide_eq_false hxy.not_gt]; rfl
  · rw [decide_eq_true hxy]; rfl
  · rw [decide_eq_false hxy.not_gt]; rfl

theorem flagL_compareFlags (x y : Byte) : flagL (compareFlags x y) = decide (x.toNat < y.toNat) := by
  obtain ⟨hxy, h⟩ | ⟨hxy, h⟩ | ⟨hxy, h⟩ := compareFlags_cases x y <;> rw [h]
  · rw [decide_eq_false hxy.not_lt]; rfl
  · rw [decide_eq_false hxy.not_gt]; rfl
  · rw [decide_eq_true hxy]; rfl

/-- A comparison sets exactly one of E, G and L (R124). -/
theorem compareFlags_eq_one_flag (x y : Byte) :
    compareFlags x y = 0b001 ∨ compareFlags x y = 0b010 ∨ compareFlags x y = 0b100 :=
  (compareFlags_cases x y).imp And.right (Or.imp And.right And.right)

/-! ### A sum with the complement of a byte -/

/-- Adding 256 - c subtracts c modulo 256 (R126). -/
theorem sumByte_of_complement (x : Byte) {y c : Byte} (h : y.toNat = 256 - c.toNat) : sumByte x y = x - c := by
  refine BitVec.eq_of_toNat_eq ?_
  rw [toNat_sumByte, BitVec.toNat_sub, h, Nat.add_comm]

/-! ### The ALU's instructions -/

theorem aluOp_eq_add_iff {i : Instr} : aluOp i = some .add ↔ i.mnemonic = .add := by
  cases i <;> simp [aluOp, Instr.mnemonic]

theorem aluOp_eq_compare_iff {i : Instr} : aluOp i = some .compare ↔ i.mnemonic = .cmp := by
  cases i <;> simp [aluOp, Instr.mnemonic]

/-- The guard's tags are selected for no instruction (R121). -/
theorem aluOp_ne_other (i : Instr) (n : Nat) : aluOp i ≠ some (.other n) := by
  cases i <;> simp [aluOp]

/-- The ALU writes back to x[a] and FL alone (R120): pc, status, output and memory stay. -/
theorem writeAlu_frame (s : State) (r : RegIndex) (v : AluResult) :
    (writeAlu s r v).pc = s.pc ∧ (writeAlu s r v).status = s.status ∧ (writeAlu s r v).output = s.output ∧
      (writeAlu s r v).mem = s.mem := by
  cases v <;> exact ⟨rfl, rfl, rfl, rfl⟩

/-- An instruction with an ALU tag writes back the ALU's result of that tag on its two registers (R120, R123, R124). -/
theorem Completes.eq_writeAlu {s t : State} {i : Instr} {tag : AluTag} (h : Completes s i t) (htag : aluOp i = some tag) :
    ∃ r q v, i.regFields = [regByte r, regByte q] ∧ alu tag (s.reg r) (s.reg q) = .ok v ∧
      t = (writeAlu s r v).advance 3 := by
  cases h with
  | add r q => cases htag; exact ⟨r, q, _, rfl, alu_add _ _, rfl⟩
  | cmp r q => cases htag; exact ⟨r, q, _, rfl, alu_compare _ _, rfl⟩
  | _ => cases htag

/-! ### The statements -/

/-- Settles O17: what completes is no fault, and the guard of the ALU is no cause of one. -/
theorem noStepRaisesUnsupportedAlu : Obligations.NoStepRaisesUnsupportedAlu := by
  intro om s t tag h hfault
  obtain ⟨hs, -⟩ := stepWith_cases h
  obtain ⟨i, -, hc⟩ | ⟨f, hf, rfl⟩ := stepWith_completes_or_faults h
  · exact hc.status_ne_faulted hs _ hfault
  · obtain rfl : f = .unsupportedAluOperation tag := Status.faulted.inj hfault
    cases hf

/-- Settles O21: MUL writes the product's byte to its first register. -/
theorem mulMultipliesModulo256 : Obligations.MulMultipliesModulo256 :=
  ⟨opcodeRuns_instrOf .mul, fun _ r q hs => (Completes.mul r q).exists_next_of_setReg hs (toNat_productByte _ _)⟩

/-- Settles O22: ADD writes the sum's byte to its first register. -/
theorem addAddsModulo256 : Obligations.AddAddsModulo256 :=
  ⟨opcodeRuns_instrOf .add, fun _ r q hs => (Completes.add r q).exists_next_of_setReg hs (toNat_sumByte _ _)⟩

/-- Settles O23: CMP completes in the state that writes the comparison's flags to FL, and keeps all else but the pc. -/
theorem cmpSetsExactlyOneFlag : Obligations.CmpSetsExactlyOneFlag :=
  ⟨opcodeRuns_instrOf .cmp, fun _ r q hs => ⟨_, (Completes.cmp r q).exec, flagE_compareFlags _ _, flagG_compareFlags _ _,
    flagL_compareFlags _ _, compareFlags_eq_one_flag _ _, rfl, fun _ => rfl, hs, rfl, fun _ => rfl⟩⟩

/-- Settles O33: ADD writes the sum, which is the difference modulo 256, with or without the borrow. -/
theorem addingTheComplementSubtracts : Obligations.AddingTheComplementSubtracts := by
  intro s r q c _ _ hq
  have hreg : ((s.setReg r (sumByte (s.reg r) (s.reg q))).advance 3).reg r = s.reg r - c := by
    rw [State.reg_advance, State.reg_setReg_self, sumByte_of_complement _ hq]
  refine ⟨_, (Completes.add r q).exec, hreg, ?_⟩
  rw [hreg, BitVec.toNat_sub]
  constructor <;> omega

/-- Settles O31: the ALU's operations by their equations, the tags by instruction, and the write-back of the ALU's result. -/
theorem aluHasAddAndCompareOnly : Obligations.AluHasAddAndCompareOnly := by
  refine ⟨fun x y => ⟨_, alu_add x y, toNat_sumByte x y⟩,
    fun x y => ⟨_, alu_compare x y, flagE_compareFlags x y, flagG_compareFlags x y, flagL_compareFlags x y⟩, alu_other,
    fun i => ⟨aluOp_eq_add_iff, aluOp_eq_compare_iff, aluOp_ne_other i⟩, fun i tag s hs hwf htag => ?_⟩
  obtain ⟨t, ht⟩ := exists_completes_of_wellFormed s hwf
  obtain ⟨r, q, v, hfields, hv, rfl⟩ := ht.eq_writeAlu htag
  obtain ⟨hpc, hstatus, hout, hmem⟩ := writeAlu_frame s r v
  refine ⟨r, q, v, _, hfields, hv, ht.exec, ?_, ?_, congrArg (· + 3) hpc, hstatus.trans hs, hout, memRead_congr hmem⟩
  · rintro w rfl
    exact ⟨s.reg_setReg_self r w, fun k => s.reg_setReg_of_ne w, s.setReg_fl r w⟩
  · rintro f rfl
    exact ⟨s.setFl_fl f, s.reg_setFl f⟩

end Sys2Proof.Machine

/-! ## The statements of spec/44_stack.md

PUSH and CALL store at the SP they leave, POP and RET read at the SP they find (R140 to R142). What R7 gives as an operand is what
it holds after the SP write of the same instruction (R9, D22), and SP is a byte, so it wraps (R143). -/

namespace Sys2Proof.Machine

/-! ### The registers after an SP write -/

/-- A register other than R7 reads through the SP write as before it. -/
theorem State.reg_decSp_of_ne (s : State) {r : RegIndex} (hr : r ≠ 7) : s.decSp.reg r = s.reg r :=
  (s.reg_decSp r).trans (if_neg hr)

/-- The registers after a POP of `v` into `r`: where `r` is R7, the increment applies to `v` (R142). -/
theorem State.reg_incSp_setReg (s : State) (r q : RegIndex) (v : Byte) :
    (s.setReg r v).incSp.reg q =
      if q = 7 then (if r = 7 then v + 1 else s.reg 7 + 1) else if q = r then v else s.reg q := by
  rw [State.reg_incSp, State.reg_setReg, State.reg_setReg]
  by_cases hr : r = 7
  · rw [if_pos hr, if_pos hr.symm]
  · rw [if_neg hr, if_neg (Ne.symm hr)]

/-- POP into a register other than R7 leaves the byte at SP in it. -/
theorem State.reg_incSp_setReg_self (s : State) {r : RegIndex} (v : Byte) (hr : r ≠ 7) :
    (s.setReg r v).incSp.reg r = v := by
  rw [State.reg_incSp_setReg, if_neg hr, if_pos rfl]

/-- POP into a register other than R7 increments the SP it started with. -/
theorem State.sp_incSp_setReg_of_ne (s : State) {r : RegIndex} (v : Byte) (hr : r ≠ 7) :
    (s.setReg r v).incSp.reg 7 = s.reg 7 + 1 := by
  rw [State.reg_incSp_setReg, if_pos rfl, if_neg hr]

/-- POP R7 increments the popped byte (R142, D22). -/
theorem State.sp_incSp_setReg_sp (s : State) (v : Byte) : (s.setReg 7 v).incSp.reg 7 = v + 1 :=
  s.reg_incSp_setReg 7 7 v

/-! ### SP where it does not wrap -/

theorem toNat_sub_one_of_pos {v : Byte} (h : 0 < v.toNat) : (v - 1).toNat = v.toNat - 1 :=
  BitVec.toNat_sub_of_le h

theorem toNat_add_one_of_lt {v : Byte} (h : v.toNat < 255) : (v + 1).toNat = v.toNat + 1 :=
  BitVec.toNat_add_of_lt (Nat.add_lt_add_right h 1)

/-! ### The statements -/

/-- Settles O24: PUSH completes in the state that decrements SP and stores the register as it then reads. -/
theorem pushStoresBelowTheStack : Obligations.PushStoresBelowTheStack := by
  refine ⟨opcodeRuns_instrOf .push, fun s r hs => ⟨s.stackTop_decSp, _, (Completes.push r).exec, s.reg_decSp, ?_, rfl, rfl,
    hs, rfl⟩⟩
  rw [← State.reg_decSp]
  exact memRead_of_mem_eq_put_decSp rfl

/-- Settles O25: POP completes in the state that writes the byte at SP to its register and then increments R7. -/
theorem popLoadsTheTopOfStack : Obligations.PopLoadsTheTopOfStack :=
  ⟨opcodeRuns_instrOf .pop, fun s r hs => ⟨_, _, memRead_stackTop s, (Completes.pop r).exec,
    fun q => s.reg_incSp_setReg r q _, rfl, rfl, hs, rfl, fun _ => rfl⟩⟩

/-- Settles O38: the byte stored stands at the SP that PUSH and CALL leave; POP and RET read at the SP they find. -/
theorem stackDescends : Obligations.StackDescends := by
  refine ⟨fun s r _ hsp => ⟨fun hr => ?_, fun hpc => ?_⟩, fun s r _ hsp hr => ?_, fun s _ => ?_, rfl, fun r hr => ?_⟩
  · rw [← s.reg_decSp_of_ne hr]
    exact ⟨_, (Completes.push r).exec, toNat_sub_one_of_pos hsp, memRead_stored rfl⟩
  · exact ⟨_, _, (Completes.call r).exec, toNat_sub_one_of_pos hsp, memRead_stored rfl, toNat_returnByte hpc⟩
  · refine ⟨_, (Completes.pop r).exec, ?_, ?_⟩
    · rw [State.reg_advance, State.reg_incSp_setReg_self _ _ hr]
      exact memRead_stackTop s
    · rw [State.reg_advance, State.sp_incSp_setReg_of_ne _ _ hr, toNat_add_one_of_lt hsp]
  · exact ⟨_, _, Completes.ret.exec, memRead_stackTop s, rfl, rfl⟩
  · have htop : State.reset.decSp.stackTop = 0xF3 := rfl
    rw [← State.reset.reg_decSp_of_ne hr, ← htop]
    exact ⟨_, (Completes.push r).exec, rfl, memRead_stored rfl⟩

/-- Settles O39: the byte 0 - 1 is 255 and the byte 255 + 1 is 0, and neither address leaves memory. -/
theorem stackPointerWraps : Obligations.StackPointerWraps := by
  intro s r hs
  have hdec : s.reg 7 = 0 → s.decSp.reg 7 = 255 := fun hsp => by rw [State.reg_decSp, if_pos rfl, hsp]; rfl
  have htop : s.reg 7 = 0 → s.decSp.stackTop = 255 := fun hsp => congrArg BitVec.toNat (hdec hsp)
  refine ⟨fun hsp => ?_, fun hsp hpc => ?_, fun hsp hr => ?_, ?_⟩
  · have hval : s.decSp.reg r = if r = 7 then 255 else s.reg r := by
      rw [State.reg_decSp, hsp]; rfl
    rw [← hval, ← htop hsp]
    exact ⟨_, (Completes.push r).exec, hs, hdec hsp, memRead_stored rfl⟩
  · rw [← htop hsp]
    exact ⟨_, _, (Completes.call r).exec, hs, hdec hsp, memRead_stored rfl, toNat_returnByte hpc⟩
  · have hread : s.stackTop = 255 := congrArg BitVec.toNat hsp
    refine ⟨_, (Completes.pop r).exec, hs, ?_, ?_⟩
    · rw [State.reg_advance, State.sp_incSp_setReg_of_ne _ _ hr, hsp]; rfl
    · rw [State.reg_advance, State.reg_incSp_setReg_self _ _ hr, ← hread]
      exact memRead_stackTop s
  · rintro rfl hbyte
    have hpop : s.mem.get s.stackTop = 255 := Except.ok.inj ((memRead_stackTop s).symm.trans hbyte)
    refine ⟨_, (Completes.pop 7).exec, hs, ?_⟩
    rw [State.reg_advance, State.sp_incSp_setReg_sp, hpop]; rfl

/-- Settles O40: POP finds the byte that PUSH stored at the SP that PUSH left, and increments it back unless it names R7. -/
theorem pushThenPop : Obligations.PushThenPop := by
  intro s i j hs
  obtain ⟨-, hpush⟩ := pushStoresBelowTheStack
  obtain ⟨-, hpop⟩ := popLoadsTheTopOfStack
  obtain ⟨htop, t, ht, htreg, htmem, -, -, htrun, -⟩ := hpush s i hs
  obtain ⟨v, u, hv, hu, hureg, -, -, -, -, humem⟩ := hpop t j htrun
  have hsp : t.reg 7 = s.reg 7 - 1 := htreg 7
  have hstored : memRead t (s.reg 7 - 1).toNat = .ok (if i = 7 then s.reg 7 - 1 else s.reg i) := by
    rw [htmem, if_pos htop.symm]
  obtain rfl : v = if i = 7 then s.reg 7 - 1 else s.reg i := by
    rw [hsp] at hv
    exact Except.ok.inj (hv.symm.trans hstored)
  have hback : t.reg 7 + 1 = s.reg 7 := by rw [hsp, BitVec.sub_add_cancel]
  refine ⟨t, u, ht, hu, fun hi hj => ⟨?_, ?_, ?_⟩, fun hi hj => ⟨?_, ?_⟩, fun hi hj => ?_, fun hi hj => ?_⟩
  · rw [hureg, if_neg hj, if_pos rfl, if_neg hi]
  · rw [hureg, if_pos rfl, if_neg hj, hback]
  · rw [humem, hstored, if_neg hi]
  · rw [hureg, if_neg hj, if_pos rfl, if_pos hi]
  · rw [hureg, if_pos rfl, if_neg hj, hback]
  · rw [hureg, if_pos rfl, if_pos hj, if_neg hi]
  · rw [hureg, if_pos rfl, if_pos hj, if_pos hi, BitVec.sub_add_cancel]

end Sys2Proof.Machine

/-! ## The statements of spec/45_control_transfer.md

RET, JMP, JEQ and JNE write the pc and nothing else (R152 to R155); CALL also stores its return address at the SP it leaves, and
reads its target after the SP write (R151, D22). -/

namespace Sys2Proof.Machine

/-- An instruction whose result differs in the pc alone keeps the registers, FL, the output and the memory (R152 to R155). -/
theorem Completes.exists_next_of_setPc {s : State} {i : Instr} {p : Nat} (h : Completes s i (s.setPc p))
    (hs : s.status = .running) :
    ∃ t, Machine.exec i s = .next t ∧ t.pc = p ∧ (∀ q, t.reg q = s.reg q) ∧ t.fl = s.fl ∧ t.status = .running ∧
      t.output = s.output ∧ ∀ x, memRead t x = memRead s x :=
  ⟨_, h.exec, s.setPc_pc p, s.reg_setPc p, s.setPc_fl p, hs, s.setPc_output p, memRead_congr (s.setPc_mem p)⟩

/-- Settles O26: CALL completes in the state that decrements SP, stores p + 2 there and jumps to the register as it then reads. -/
theorem callPushesTheReturnAddress : Obligations.CallPushesTheReturnAddress := by
  refine ⟨opcodeRuns_instrOf .call, fun s r hs hpc => ⟨s.stackTop_decSp, _, _, toNat_returnByte hpc,
    (Completes.call r).exec, ?_, s.reg_decSp, memRead_of_mem_eq_put_decSp rfl, rfl, hs, rfl⟩⟩
  rw [State.setPc_pc, State.reg_decSp]

/-- Settles O27: RET completes in the state whose pc is the byte at SP. -/
theorem retJumpsWithoutPopping : Obligations.RetJumpsWithoutPopping := by
  refine ⟨opcodeRuns_instrOf .ret, fun s hs => ?_⟩
  obtain ⟨t, ht⟩ := Completes.ret.exists_next_of_setPc hs
  exact ⟨_, t, memRead_stackTop s, ht⟩

/-- Settles O28: JMP completes in the state whose pc is the register's byte. -/
theorem jmpJumpsToTheRegister : Obligations.JmpJumpsToTheRegister :=
  ⟨opcodeRuns_instrOf .jmp, fun _ r => (Completes.jmp r).exists_next_of_setPc⟩

/-- Settles O29: JEQ completes in the state whose pc is the register's byte where E is set, else p + 2. -/
theorem jeqJumpsOnEqual : Obligations.JeqJumpsOnEqual :=
  ⟨opcodeRuns_instrOf .jeq, fun _ r => (Completes.jeq r).exists_next_of_setPc⟩

/-- Settles O30: JNE completes in the state whose pc is p + 2 where E is set, else the register's byte. -/
theorem jneJumpsOnNotEqual : Obligations.JneJumpsOnNotEqual :=
  ⟨opcodeRuns_instrOf .jne, fun _ r => (Completes.jne r).exists_next_of_setPc⟩

/-- Settles O41: RET finds at the SP that CALL left the byte that CALL stored there, and keeps that SP. -/
theorem callThenRet : Obligations.CallThenRet := by
  intro s t u r hs hpc ht hu hsp hslot
  obtain ⟨-, hcall⟩ := callPushesTheReturnAddress
  obtain ⟨-, hret⟩ := retJumpsWithoutPopping
  obtain ⟨htop, w, t', hw, ht', -, htreg, htmem, -⟩ := hcall s r hs hpc
  obtain rfl : t' = t := Host.Outcome.next.inj (ht'.symm.trans ht)
  obtain ⟨v, u', hv, hu', hpc', hureg, -⟩ := hret u hu
  have htsp : t'.reg 7 = s.reg 7 - 1 := htreg 7
  have hstored : memRead t' (t'.reg 7).toNat = .ok w := by
    rw [htmem, htsp, if_pos htop.symm]
  obtain rfl : v = w := by
    rw [hsp, hslot] at hv
    exact Except.ok.inj (hv.symm.trans hstored)
  exact ⟨u', hu', hpc'.trans hw, (hureg 7).trans (hsp.trans htsp)⟩

/-- Settles O42: E, which both read, decides for the one exactly where it decides against the other. -/
theorem jeqAndJneTakeOppositePaths : Obligations.JeqAndJneTakeOppositePaths := by
  intro s r _
  refine ⟨_, _, (Completes.jeq r).exec, (Completes.jne r).exec, ?_⟩
  rw [State.setPc_pc, State.setPc_pc]
  cases flagE s.fl with
  | true => exact .inl ⟨rfl, rfl⟩
  | false => exact .inr ⟨rfl, rfl⟩

end Sys2Proof.Machine

/-! ## The statements of spec/60_exceptions.md

A step's checks come in the order fetch, opcode, register fields (R177); the first that fails is the fault taken, which changes the
status alone (R176). The trace snapshot reads a state and shows bytes as two hexadecimal digits (R185). -/

namespace Sys2Proof.Machine

/-! ### The checks of a step, in their order -/

/-- The step from a pc above 253 raises OutOfBounds with the first address of its fetch that lies above memory (R81, R83). -/
theorem stepWith_of_fetch_outOfBounds {s : State} {n : Nat} (om : OpcodeMap) (hs : s.status = .running)
    (hpc : 254 ≤ s.pc) (hn : max s.pc 256 = n) : stepWith om s = .next (takeFault s (.outOfBounds n)) := by
  subst hn
  obtain ⟨hlow, -⟩ | ⟨-, hd⟩ | ⟨hlow, -⟩ := fetchDecode_cases om s
  · exact absurd hlow (by omega)
  · exact stepWith_of_error hs hd
  · exact absurd hlow (by omega)

/-- A running core fetches three bytes from a pc of at most 253 (R81). -/
theorem exists_fetches_of_pc_le {s : State} (hs : s.status = .running) (hpc : s.pc ≤ 253) :
    ∃ op a b, Fetches s op a b :=
  ⟨_, _, _, hs, memRead_of_lt (by omega), memRead_of_lt (by omega), memRead_of_lt (by omega)⟩

/-- Fetched bytes that the decoder rejects raise IllegalInstruction with the pc and the opcode (R84, R175). -/
theorem Fetches.stepWith_of_reject {om : OpcodeMap} {s : State} {op a b : Byte} {e : DecodeReject}
    (h : Fetches s op a b) (hd : decodeWith om op a b = .error e) :
    stepWith om s = .next (takeFault s (.illegalInstruction s.pc op)) := by
  obtain ⟨m, -, hok⟩ | ⟨hop, -⟩ := decodeWith_cases om op a b
  · exact nomatch hd.symm.trans hok
  · exact opcodesOutsideTheMapFault om s op a b h hop

/-- What completes in a running state is Running or, after HLT, Halted (R28, R92). -/
theorem Completes.running_or_halted {s t : State} {i : Instr} (h : Completes s i t) (hs : s.status = .running) :
    t.status = .running ∨ t.status = .halted := by
  rw [h.status_eq, hs]
  split
  · exact .inr rfl
  · exact .inl rfl

/-! ### The trace's fields -/

/-- Only an address inside memory reads a byte (R42). -/
theorem lt_of_memRead_eq_ok {s : State} {x : Nat} {v : Byte} (h : memRead s x = .ok v) : x < 256 := by
  by_contra hx
  exact nomatch (memRead_of_ge (Nat.not_lt.1 hx)).symm.trans h

/-- The two digits of a byte are its value in base 16. -/
theorem hexByte_digits (v : Byte) : ∃ hi lo : BitVec 4, hexByte v = .hex hi lo ∧ 16 * hi.toNat + lo.toNat = v.toNat := by
  refine ⟨_, _, rfl, ?_⟩
  rw [BitVec.toNat_ofNat, BitVec.toNat_ofNat]
  omega

theorem tracePc_of_lt {p : Nat} (h : p < 256) : tracePc p = hexByte (BitVec.ofNat 8 p) := if_pos h

theorem traceByte_of_memRead {s : State} {x : Nat} {v : Byte} (h : memRead s x = .ok v) : traceByte s x = hexByte v := by
  rw [traceByte, h]

/-! ### The statements -/

/-- Settles O8: above 253 the fetch raises; at 253 and below it delivers three bytes, and the decoder's rejection, then the first bad
register field, decide whether the instruction completes. -/
theorem faultPriorityOrder : Obligations.FaultPriorityOrder := by
  intro om s hs
  split_ifs with h0 h1 h2
  · exact stepWith_of_fetch_outOfBounds om hs (by omega) (by omega)
  · exact stepWith_of_fetch_outOfBounds om hs (by omega) (by omega)
  · exact stepWith_of_fetch_outOfBounds om hs (by omega) (by omega)
  · obtain ⟨op, a, b, hf⟩ := exists_fetches_of_pc_le hs (show s.pc ≤ 253 by omega)
    have ⟨_, hop, ha, hb⟩ := hf
    refine ⟨op, a, b, hop, ha, hb, ?_⟩
    cases hd : decodeWith om op a b with
    | error e => exact hf.stepWith_of_reject hd
    | ok i =>
      simp only [hf.stepWith_eq hd]
      cases hbad : i.firstBadRegister with
      | some v => exact exec_of_firstBadRegister s hbad
      | none =>
        obtain ⟨t, ht⟩ := exists_completes_of_wellFormed s (firstBadRegister_eq_none_iff.1 hbad)
        exact ⟨t, ht.exec, ht.running_or_halted hs⟩

/-- Settles O11: what completes is no fault, so the step took one, which changes the status alone; and a faulted core has no step. -/
theorem faultEndsTheRun : Obligations.FaultEndsTheRun := by
  intro om s t f h hfault
  have hstopped : t.status ≠ .running := by simp [hfault]
  refine ⟨?_, stepWith_ne_next_of_not_running hstopped om⟩
  obtain ⟨hs, -⟩ := stepWith_cases h
  obtain ⟨i, -, hc⟩ | ⟨g, -, rfl⟩ := stepWith_completes_or_faults h
  · exact absurd hfault (hc.status_ne_faulted hs f)
  · obtain rfl : g = f := Status.faulted.inj hfault
    rfl

/-- Settles O52: the digits are the byte's in base 16, and a pc whose byte lies in memory has two of them. -/
theorem traceShowsPcBytesAndRegisters : Obligations.TraceShowsPcBytesAndRegisters := by
  refine ⟨hexByte_digits, fun s op a b hop ha hb => ?_⟩
  rw [traceSnapshot, tracePc_of_lt (lt_of_memRead_eq_ok hop), traceByte_of_memRead hop, traceByte_of_memRead ha,
    traceByte_of_memRead hb]
  rfl

end Sys2Proof.Machine

/-! ## The statements of spec/70_reset_and_hazards.md

The fetch of a step at 254 or above fails (R209). The Loader reads a line as the eight digits that are left of it (R201), and goes
through the lines with one address for each literal (R201, R202): `loadFrom_eq_ok_iff` says once when it succeeds and with what. -/

namespace Sys2Proof.Machine

/-! ### Binary digits -/

/-- The characters of a literal are 0 and 1 (R201). -/
def isDigitChar (c : Char) : Bool := c == '0' || c == '1'

/-- A digit that ends the string is the value's bit 0, and the string before it the rest. -/
theorem binaryValue_concat (l : List Char) (c : Char) :
    binaryValue (l ++ [c]) = 2 * binaryValue l + (if c = '1' then 1 else 0) := by
  rw [binaryValue, List.foldl_append]
  rfl

/-- Bit `k` of the value is the digit `k` places before the last. -/
theorem testBit_binaryValue_reverse (l : List Char) (k : Nat) :
    (binaryValue l.reverse).testBit k = decide (l[k]? = some '1') := by
  induction l generalizing k with
  | nil => simp [binaryValue]
  | cons c l ih =>
    rw [List.reverse_cons, binaryValue_concat]
    cases k with
    | zero =>
      rw [Nat.testBit_zero]
      by_cases hc : c = '1' <;> simp [hc]
    | succ k =>
      have hdiv : (2 * binaryValue l.reverse + (if c = '1' then 1 else 0)) / 2 = binaryValue l.reverse := by
        split <;> omega
      rw [Nat.testBit_add_one, hdiv, ih, List.getElem?_cons_succ]

/-- Bit `k` of an eight-digit string's byte, counted from the most significant one, is its digit `k` (R201). -/
theorem getMsbD_binaryValue {l : List Char} (hl : l.length = 8) {k : Nat} (hk : k < 8) :
    (BitVec.ofNat 8 (binaryValue l)).getMsbD k = decide (l[k]? = some '1') := by
  have hbit := testBit_binaryValue_reverse l.reverse (8 - 1 - k)
  rw [List.reverse_reverse, List.getElem?_reverse (by omega), show l.length - 1 - (8 - 1 - k) = k by omega] at hbit
  rw [BitVec.getMsbD, decide_eq_true hk, Bool.true_and, BitVec.getLsbD_ofNat, decide_eq_true (by omega), Bool.true_and,
    hbit]

theorem length_binaryDigits (v : Byte) : (binaryDigits v).length = 8 := by simp [binaryDigits]

theorem getElem?_binaryDigits (v : Byte) {k : Nat} (hk : k < 8) :
    (binaryDigits v)[k]? = some (if v.getMsbD k then '1' else '0') := by
  simp [binaryDigits, hk]

theorem isDigitChar_of_mem_binaryDigits {v : Byte} {c : Char} (h : c ∈ binaryDigits v) : isDigitChar c = true := by
  obtain ⟨k, -, rfl⟩ := List.mem_map.1 h
  split <;> rfl

theorem literalByte_eq_some_iff {l : List Char} {v : Byte} :
    literalByte l = some v ↔
      l.length = 8 ∧ l.all isDigitChar = true ∧ BitVec.ofNat 8 (binaryValue l) = v := by
  rw [literalByte, Option.ite_none_right_eq_some, Option.some.injEq, and_assoc]
  rfl

/-- A byte's digits read as that byte. -/
theorem literalByte_binaryDigits (v : Byte) : literalByte (binaryDigits v) = some v := by
  refine literalByte_eq_some_iff.2 ⟨length_binaryDigits v,
    List.all_eq_true.2 fun _ => isDigitChar_of_mem_binaryDigits, BitVec.eq_of_getMsbD_eq fun k hk => ?_⟩
  rw [getMsbD_binaryValue (length_binaryDigits v) hk, getElem?_binaryDigits v hk]
  cases v.getMsbD k <;> rfl

/-- A literal is the digits of the byte it is read as. -/
theorem eq_binaryDigits_of_literalByte {l : List Char} {v : Byte} (h : literalByte l = some v) : l = binaryDigits v := by
  obtain ⟨hlen, hdigits, rfl⟩ := literalByte_eq_some_iff.1 h
  refine List.ext_getElem (by rw [hlen, length_binaryDigits]) fun k hk hk' => ?_
  have hk8 : k < 8 := hlen ▸ hk
  have hdigit : l[k] = '0' ∨ l[k] = '1' := by
    simpa [isDigitChar] using List.all_eq_true.1 hdigits _ (List.getElem_mem hk)
  have hget := getElem?_binaryDigits (BitVec.ofNat 8 (binaryValue l)) hk8
  rw [getMsbD_binaryValue hlen hk8, List.getElem?_eq_getElem hk', List.getElem?_eq_getElem hk] at hget
  obtain h0 | h1 := hdigit
  · simpa [h0] using hget.symm
  · simpa [h1] using hget.symm

theorem literalByte_nil : literalByte [] = none := rfl

/-! ### Comment and white space -/

/-- Blank characters before a text that has none at its start are dropped, and nothing more. -/
theorem dropWhile_blanks_append {pre l : List Char} (hpre : pre.all isBlankChar = true)
    (hl : ∀ c ∈ l.head?, isBlankChar c = false) : (pre ++ l).dropWhile isBlankChar = l := by
  rw [List.dropWhile_append_of_pos (List.all_eq_true.1 hpre)]
  cases l with
  | nil => rfl
  | cons c l => exact List.dropWhile_cons_of_neg (by simp [hl c rfl])

/-- White space around a text without any is trimmed, and nothing more (R201, 2). -/
theorem trimBlanks_append {pre body post : List Char} (hpre : pre.all isBlankChar = true)
    (hpost : post.all isBlankChar = true) (hbody : ∀ c ∈ body, isBlankChar c = false) :
    trimBlanks (pre ++ (body ++ post)) = body := by
  have hrev : post.reverse.all isBlankChar = true := by rwa [List.all_reverse]
  rw [trimBlanks]
  cases body with
  | nil =>
    have hall : (pre ++ post).all isBlankChar = true := by rw [List.all_append, hpre, hpost]; rfl
    rw [List.nil_append, List.dropWhile_eq_nil_iff.2 (List.all_eq_true.1 hall)]
    rfl
  | cons c body =>
    rw [dropWhile_blanks_append hpre (by simpa using hbody c (.head _)), List.reverse_append,
      dropWhile_blanks_append hrev (fun d hd => hbody d (List.mem_reverse.1 (List.mem_of_mem_head? hd))),
      List.reverse_reverse]

/-- A comment after a text without a number sign falls away (R201, 1). -/
theorem stripComment_append {l comment : List Char} (hl : ∀ c ∈ l, c ≠ '#')
    (hcomment : comment = [] ∨ comment.head? = some '#') : stripComment (l ++ comment) = l := by
  rw [stripComment, List.takeWhile_append_of_pos (by simpa using hl)]
  have hnil : comment.takeWhile (fun c => c != '#') = [] := by
    cases comment with
    | nil => rfl
    | cons c comment =>
      obtain rfl : c = '#' := by simpa using hcomment
      rfl
  rw [hnil, List.append_nil]

theorem ne_numberSign_of_isBlankChar {c : Char} (h : isBlankChar c = true) : c ≠ '#' := by
  rintro rfl
  exact absurd h (by decide)

/-- Of a line's white space, text and comment the text is left, where it has no white space and no number sign (R201). -/
theorem lineBody_append {pre body post comment : List Char} (hpre : pre.all isBlankChar = true)
    (hpost : post.all isBlankChar = true) (hbody : ∀ c ∈ body, isBlankChar c = false ∧ c ≠ '#')
    (hcomment : comment = [] ∨ comment.head? = some '#') : lineBody (pre ++ body ++ post ++ comment) = body := by
  have hsign : ∀ c ∈ pre ++ body ++ post, c ≠ '#' := by
    intro c hc
    rw [List.mem_append, List.mem_append] at hc
    obtain (hc | hc) | hc := hc
    · exact ne_numberSign_of_isBlankChar (List.all_eq_true.1 hpre c hc)
    · exact (hbody c hc).2
    · exact ne_numberSign_of_isBlankChar (List.all_eq_true.1 hpost c hc)
  rw [lineBody, stripComment_append hsign hcomment, List.append_assoc,
    trimBlanks_append hpre hpost fun c hc => (hbody c hc).1]

theorem not_blank_and_ne_numberSign_of_isDigitChar {c : Char} (h : isDigitChar c = true) :
    isBlankChar c = false ∧ c ≠ '#' := by
  obtain rfl | rfl : c = '0' ∨ c = '1' := by simpa [isDigitChar] using h
  · decide
  · decide

/-! ### Bytes stored one after the other -/

/-- The memory with a list of bytes stored from an address on, in order (R201). -/
def Memory.putAll : Memory → Nat → List Byte → Memory
  | m, _, [] => m
  | m, a, v :: vs => Memory.putAll (m.put a v) (a + 1) vs

/-- Every byte after the stores: byte `k` of the list at `a + k`, the others as they were (R41). -/
theorem Memory.get_putAll (m : Memory) (a : Nat) (vs : List Byte) (x : Nat) :
    (m.putAll a vs).get x = if x < a then m.get x else vs[x - a]?.getD (m.get x) := by
  induction vs generalizing m a with
  | nil => simp [Memory.putAll]
  | cons v vs ih =>
    rw [Memory.putAll, ih, Memory.get_put]
    obtain hlt | rfl | hgt := Nat.lt_trichotomy x a
    · simp [hlt, Nat.lt_succ_of_lt hlt, hlt.ne]
    · simp
    · have hsub : x - a = x - (a + 1) + 1 := by omega
      rw [if_neg (by omega), if_neg (by omega), if_neg (by omega), hsub, List.getElem?_cons_succ]

/-- Stores inside memory keep the canonical form. -/
theorem Memory.wf_putAll {m : Memory} {a : Nat} {vs : List Byte} (hm : m.wf = true) (h : a + vs.length ≤ 256) :
    (m.putAll a vs).wf = true := by
  induction vs generalizing m a with
  | nil => exact hm
  | cons v vs ih =>
    rw [List.length_cons] at h
    exact ih (Memory.wf_put m a v (show a < 256 by omega) hm) (by omega)

theorem State.setMem_setMem (s : State) (m m' : Memory) : (s.setMem m).setMem m' = s.setMem m' := rfl

theorem State.setMem_self (s : State) : s.setMem s.mem = s := rfl

/-- A read of an address depends on the byte memory holds there alone (R42). -/
theorem memRead_eq_of_get_eq {s t : State} {x : Nat} (h : s.mem.get x = t.mem.get x) : memRead s x = memRead t x := by
  rw [memRead, memRead, h]

/-! ### The Loader on one line and on all -/

/-- The lines the Loader takes: blank once comment and white space are gone, or a literal (R201, R202). -/
def LineAccepted (l : List Char) : Prop := lineBody l ≠ [] → ∃ v, literalByte (lineBody l) = some v

/-- A line is blank, a literal, or one that the Loader rejects (R201, R202). -/
theorem line_cases (l : List Char) :
    lineBody l = [] ∨ (∃ v, lineBody l ≠ [] ∧ literalByte (lineBody l) = some v) ∨
      (lineBody l ≠ [] ∧ literalByte (lineBody l) = none) := by
  by_cases hb : lineBody l = []
  · exact .inl hb
  · cases hv : literalByte (lineBody l) with
    | none => exact .inr (.inr ⟨hb, rfl⟩)
    | some v => exact .inr (.inl ⟨v, hb, rfl⟩)

section

variable {n addr : Nat} {l : List Char} {ls : List (List Char)} {s : State} {v : Byte}

theorem imageBytes_cons_of_blank (hb : lineBody l = []) : imageBytes (l :: ls) = imageBytes ls :=
  List.filterMap_cons_none (by rw [hb, literalByte_nil])

theorem imageBytes_cons_of_literal (hv : literalByte (lineBody l) = some v) :
    imageBytes (l :: ls) = v :: imageBytes ls :=
  List.filterMap_cons_some hv

theorem loadFrom_cons_of_blank (hb : lineBody l = []) : loadFrom n addr (l :: ls) s = loadFrom (n + 1) addr ls s := by
  simp [loadFrom, hb]

theorem loadFrom_cons_of_not_literal (hb : lineBody l ≠ []) (hv : literalByte (lineBody l) = none) :
    loadFrom n addr (l :: ls) s = .error ⟨n, .notLiteral⟩ := by
  simp [loadFrom, hb, hv]

theorem loadFrom_cons_of_lt (hb : lineBody l ≠ []) (hv : literalByte (lineBody l) = some v) (ha : addr < 256) :
    loadFrom n addr (l :: ls) s = loadFrom (n + 1) (addr + 1) ls (s.setMem (s.mem.put addr v)) := by
  simp [loadFrom, hb, hv, memWrite_of_lt v ha]

theorem loadFrom_cons_of_ge (hb : lineBody l ≠ []) (hv : literalByte (lineBody l) = some v) (ha : 256 ≤ addr) :
    loadFrom n addr (l :: ls) s = .error ⟨n, .tooLarge⟩ := by
  simp [loadFrom, hb, hv, memWrite_of_ge v ha]

end

/-- What the Loader does from an address inside memory or just past it: it succeeds exactly where it takes every line and the
image's bytes fit, and then it has stored these bytes in order (R201, R202). -/
theorem loadFrom_eq_ok_iff {n addr : Nat} {lines : List (List Char)} {s t : State} (haddr : addr ≤ 256) :
    loadFrom n addr lines s = .ok t ↔
      (∀ l ∈ lines, LineAccepted l) ∧ addr + (imageBytes lines).length ≤ 256 ∧
        t = s.setMem (s.mem.putAll addr (imageBytes lines)) := by
  induction lines generalizing n addr s with
  | nil => simp [loadFrom, imageBytes, Memory.putAll, haddr, s.setMem_self, eq_comm]
  | cons l ls ih =>
    rw [List.forall_mem_cons]
    obtain hb | ⟨v, hb, hv⟩ | ⟨hb, hv⟩ := line_cases l
    · have hl : LineAccepted l := fun hne => absurd hb hne
      rw [loadFrom_cons_of_blank hb, imageBytes_cons_of_blank hb, ih haddr]
      simp [hl]
    · have hl : LineAccepted l := fun _ => ⟨v, hv⟩
      rw [imageBytes_cons_of_literal hv, List.length_cons]
      obtain ha | ha := Nat.lt_or_ge addr 256
      · have hfit : addr + 1 + (imageBytes ls).length = addr + ((imageBytes ls).length + 1) := by omega
        rw [loadFrom_cons_of_lt hb hv ha, ih ha, hfit, State.setMem_setMem, State.setMem_mem, Memory.putAll]
        simp [hl]
      · rw [loadFrom_cons_of_ge hb hv ha]
        exact ⟨nofun, fun ⟨_, hfit, _⟩ => by omega⟩
    · have hl : ¬ LineAccepted l := fun h => by simpa [hv] using h hb
      rw [loadFrom_cons_of_not_literal hb hv]
      exact ⟨nofun, fun ⟨⟨hacc, _⟩, _⟩ => absurd hacc hl⟩

/-- What loading an image does: `loadFrom_eq_ok_iff` from address 0. -/
theorem loadLines_eq_ok_iff {lines : List (List Char)} {s t : State} :
    loadLines lines s = .ok t ↔
      (∀ l ∈ lines, LineAccepted l) ∧ (imageBytes lines).length ≤ 256 ∧
        t = s.setMem (s.mem.putAll 0 (imageBytes lines)) := by
  rw [loadLines, loadFrom_eq_ok_iff (Nat.zero_le 256), Nat.zero_add]

/-! ### The statements -/

/-- Settles O9: the fetch at 254 or above reads address 256, and the LDI at 253 leaves the pc there. -/
theorem noInstructionStartsAbove253 : Obligations.NoInstructionStartsAbove253 := by
  refine ⟨fun om s hs hpc => stepWith_of_fetch_outOfBounds om hs (by omega) (by omega), fun om s r imm hom hpc hf => ?_⟩
  have hstep := (hf.stepWith_opcode hom).trans (Completes.ldi r imm).exec
  have hpc' : ((s.setReg r imm).advance 3).pc = 256 := by rw [State.advance_pc, State.setReg_pc, hpc]
  obtain ⟨hs, -⟩ := hf
  exact ⟨_, hstep, s.reg_setReg_self r imm, hpc', stepWith_of_fetch_outOfBounds om hs (by omega) (by omega)⟩

/-- Settles O49: reading the digits and writing them are inverse, and no digit is white space or the number sign. -/
theorem loaderReadsOneLine : Obligations.LoaderReadsOneLine := by
  refine ⟨fun l v => ⟨eq_binaryDigits_of_literalByte, ?_⟩, fun pre post comment v hpre hpost hcomment => ⟨?_, ?_⟩⟩
  · rintro rfl
    exact literalByte_binaryDigits v
  · have hdigits : ∀ c ∈ binaryDigits v, isBlankChar c = false ∧ c ≠ '#' := fun _ hc =>
      not_blank_and_ne_numberSign_of_isDigitChar (isDigitChar_of_mem_binaryDigits hc)
    exact lineBody_append hpre hpost hdigits hcomment
  · simpa using lineBody_append (body := []) (post := []) hpre rfl nofun hcomment

/-- Settles O50: the loaded state is the old one with the image's bytes stored from address 0 on. -/
theorem loaderPlacesTheImage : Obligations.LoaderPlacesTheImage := by
  intro lines s t h
  obtain ⟨-, hfit, rfl⟩ := loadLines_eq_ok_iff.1 h
  have hget : ∀ x, (s.mem.putAll 0 (imageBytes lines)).get x = (imageBytes lines)[x]?.getD (s.mem.get x) :=
    fun x => s.mem.get_putAll 0 _ x
  refine ⟨fun x v hv => ?_, fun x hx => ?_, rfl, fun hwf => Memory.wf_putAll hwf (by omega)⟩
  · have hx : x < (imageBytes lines).length := (List.getElem?_eq_some_iff.1 hv).1
    rw [memRead_of_lt (by omega), State.setMem_mem, hget, hv]
    rfl
  · apply memRead_eq_of_get_eq
    rw [State.setMem_mem, hget, List.getElem?_eq_none hx]
    rfl

/-- Settles O51: the lines alone decide whether there is a loaded state, and that state is the one `loadLines_eq_ok_iff` names. -/
theorem loaderAcceptsExactly : Obligations.LoaderAcceptsExactly := by
  intro lines s
  constructor
  · rintro ⟨t, ht⟩
    obtain ⟨hacc, hfit, -⟩ := loadLines_eq_ok_iff.1 ht
    exact ⟨hacc, hfit⟩
  · rintro ⟨hacc, hfit⟩
    exact ⟨_, loadLines_eq_ok_iff.2 ⟨hacc, hfit, rfl⟩⟩

end Sys2Proof.Machine

/-! ## The default opcode table

R62's table is the default OPCODE_MAP (log 1): it is injective, so each of its opcodes decodes to the instruction of its mnemonic,
and a byte outside it is rejected. -/

namespace Sys2Proof.Machine

/-- An opcode of the default map decodes to the instruction of its mnemonic (R62, R84). -/
theorem decode_opcodeMap (m : Mnemonic) (a b : Byte) : decode (Config.opcodeMap m) a b = .ok (instrOf m a b) :=
  decodeWith_opcode Config.opcodeMap_injective m a b

/-- A byte that is no opcode of the map is rejected, whatever the operand bytes (R67, R84). -/
theorem decodeWith_of_not_opcode {om : OpcodeMap} {op : Byte} (h : ∀ m, om m ≠ op) (a b : Byte) :
    decodeWith om op a b = .error (.illegalOpcode op) := by
  rw [decodeWith, lookupOpcode_none.2 h]

/-- The byte 0x00, MEM_FILL's default, is no opcode of the default map (R62, R67). -/
theorem opcodeMap_ne_zero (m : Mnemonic) : Config.opcodeMap m ≠ 0x00 := by
  cases m <;> decide

/-- Settles O3: each word starts with its mnemonic's opcode in the default map, and 0x00 is outside that map. -/
theorem defaultOpcodesAreTheTable : Obligations.DefaultOpcodesAreTheTable :=
  ⟨decode_opcodeMap .hlt 0xFF 0xFF, decode_opcodeMap .ldi 5 200, decode_opcodeMap .prn 2 0xFF, decode_opcodeMap .mul 1 6,
    decode_opcodeMap .add 6 1, decode_opcodeMap .cmp 3 4, decode_opcodeMap .push 7 0xFF, decode_opcodeMap .pop 4 0xFF,
    decode_opcodeMap .call 1 0xFF, decode_opcodeMap .ret 0xFF 0xFF, decode_opcodeMap .jmp 3 0xFF, decode_opcodeMap .jeq 2 0xFF,
    decode_opcodeMap .jne 6 0xFF, decodeWith_of_not_opcode opcodeMap_ne_zero 0x00 0x00⟩

end Sys2Proof.Machine
